-- ==== Sys2Proof/Word.lean ====
section
/-!
DEFINITION. The bit-vector types of the block. A field element is 8 bits with bit `i` the coefficient of x^i
(00_scope.md R7); a command word is 32 bits (30_encoding.md R60).
-/
namespace Sys2Proof

/-- A field element of GF(2^8): one scalar register, one vector element, one immediate (00_scope.md R6, R7). -/
abbrev Elem := BitVec 8

/-- A command word, also the width of a value on the read port (00_scope.md R6 `CMD_BITS`; 20_memory.md R40). -/
abbrev Word := BitVec 32

/-- `rep8(b)` (00_scope.md R8): the 8-bit value whose every bit equals `b`. -/
def rep8 (b : Bool) : Elem := if b then 0xFF#8 else 0x00#8

end Sys2Proof
end

