-- ==== Sys2Proof/Config.lean ====
section
/-!
DEFINITION. The parameters of the block (00_scope.md R6): the values the spec fixes, and the one it leaves
open, the latency of a command. The sizes of R6 are widths of types: `FIELD_BITS` = 8 is `Elem` and `CMD_BITS` = 32 is
`Word` (Word.lean), `NREG` = 8 is `Reg` (Syntax.lean) and `State.f`, `NVMEM` = 3 is `VecMem` (State.lean), and
`VDEPTH` = 256 is the bound of `Memory.wf` (Ops.lean).
-/
namespace Sys2Proof.Config

/-- `RED_POLY` (R6): the reduction polynomial x^8 + x^4 + x^3 + x + 1. -/
def redPoly : BitVec 9 := 0x11B#9

/-- `RED_LOW` (R6): the constant XORed in on reduction. -/
def redLow : Elem := 0x1B#8

/-- `INV_EXP` (R6): the exponent that inverts. -/
def invExp : Nat := 254

/-- `GROUP_ORDER` (R6): the order of the multiplicative group. -/
def groupOrder : Nat := 255

/-- `MAX_LEN` (R6): the greatest element count of a vector command. -/
def maxLen : Nat := 255

/-- `LAT(op, len)` less one (R6, R199; 92_eei_decisions.md D28): OPEN, so it has no body and nothing can be
proved of its value. No functional rule reads it; only the port layer does (log entry 6). -/
opaque latencyLessOne : (op len : BitVec 8) → Nat

/-- `LAT(op, len)` (R6, R199): a positive number of clock cycles that depends on the opcode byte and the `len`
field only. -/
def latency (op len : BitVec 8) : Nat := latencyLessOne op len + 1

end Sys2Proof.Config
end

