-- ==== Sys2Proof/Syntax.lean ====
section
/-!
DEFINITION. The twenty commands of the block (30_encoding.md R63), one constructor per row of the opcode table,
and the nine formats of a command word (R61). Operands stand in the order of the assembly form (R68).
-/
namespace Sys2Proof

/-- A register number, 0 to 7 (10_state.md R21; 30_encoding.md R62). -/
abbrev Reg := Fin 8

/-- An element index, the 8-bit field as it stands (30_encoding.md R62; 41_data_movement.md R110). -/
abbrev Index := BitVec 8

/-- An element count `len`, the 8-bit field as an unsigned integer 0 to 255 (30_encoding.md R62). -/
abbrev Count := BitVec 8

/-- The commands (30_encoding.md R63). -/
inductive Instr where
  /-- GFADD, opcode 0x01 (40_field_arithmetic.md R88). -/
  | gfadd (rd rs1 rs2 : Reg)
  /-- GFMUL, opcode 0x02 (R89). -/
  | gfmul (rd rs1 rs2 : Reg)
  /-- GFINV, opcode 0x03 (R90). -/
  | gfinv (rd rs1 : Reg)
  /-- GFDIV, opcode 0x04 (R91). -/
  | gfdiv (rd rs1 rs2 : Reg)
  /-- LDI, opcode 0x10 (41_data_movement.md R100). -/
  | ldi (rd : Reg) (imm8 : Elem)
  /-- LDC, opcode 0x11 (R101). -/
  | ldc (rd : Reg) (idx : Index)
  /-- LDX, opcode 0x12 (R102). -/
  | ldx (rd : Reg) (idx : Index)
  /-- LDY, opcode 0x13 (R103). -/
  | ldy (rd : Reg) (idx : Index)
  /-- STC, opcode 0x14 (R104). -/
  | stc (idx : Index) (rs : Reg)
  /-- STX, opcode 0x15 (R105). -/
  | stx (idx : Index) (rs : Reg)
  /-- STY, opcode 0x16 (R106). -/
  | sty (idx : Index) (rs : Reg)
  /-- SETC, opcode 0x17 (R107). -/
  | setc (idx : Index) (imm8 : Elem)
  /-- SETX, opcode 0x18 (R108). -/
  | setx (idx : Index) (imm8 : Elem)
  /-- SETY, opcode 0x19 (R109). -/
  | sety (idx : Index) (imm8 : Elem)
  /-- EVAL, opcode 0x20 (42_polynomial_evaluator.md R121). -/
  | eval (rd rs : Reg) (len : Count)
  /-- INTERP0, opcode 0x30 (43_lagrange_interpolation.md R132). -/
  | interp0 (rd : Reg) (len : Count)
  /-- INTERP, opcode 0x31 (R133). -/
  | interp (rd rs : Reg) (len : Count)
  /-- NOP, opcode 0x40 (44_system.md R150). -/
  | nop
  /-- CLRERR, opcode 0x41 (R151). -/
  | clrerr
  /-- WIPE, opcode 0x42 (R152). -/
  | wipe
  deriving DecidableEq, Repr

/-- The four 8-bit fields of a command word (30_encoding.md R60), before any of them is interpreted. -/
structure Fields where
  op : BitVec 8
  d  : BitVec 8
  a  : BitVec 8
  b  : BitVec 8
  deriving DecidableEq, Repr

/-- The nine formats (30_encoding.md R61). -/
inductive Format where
  | r3 | r2 | ri | rl | sr | si | rv | r0v | z
  deriving DecidableEq, Repr

end Sys2Proof
end

