-- ==== Sys2Proof/WellFormed.lean ====
section
/-!
DEFINITION. When the four fields of a command word are those of a command, check by check as 30_encoding.md R65
lists the ways a word can fail: (a) the opcode byte is one of the twenty, (b) every register-number field is at
most 7, (c) every must-be-zero field is zero. A term of `Instr` cannot break these checks (its register numbers
are `Fin 8`), so they stand on the raw fields; `instr_fields_wellFormed` (Laws/PerInstr.lean) says that every
`Instr` meets them. The mask of a format (R61) is the same condition on the whole word.
-/
namespace Sys2Proof

/-- The format of each opcode byte, `none` for the 236 reserved ones (30_encoding.md R63, R66). -/
def formatOf (op : BitVec 8) : Option Format :=
  if op = 0x01#8 ∨ op = 0x02#8 ∨ op = 0x04#8 then some .r3
  else if op = 0x03#8 then some .r2
  else if op = 0x10#8 then some .ri
  else if op = 0x11#8 ∨ op = 0x12#8 ∨ op = 0x13#8 then some .rl
  else if op = 0x14#8 ∨ op = 0x15#8 ∨ op = 0x16#8 then some .sr
  else if op = 0x17#8 ∨ op = 0x18#8 ∨ op = 0x19#8 then some .si
  else if op = 0x20#8 ∨ op = 0x31#8 then some .rv
  else if op = 0x30#8 then some .r0v
  else if op = 0x40#8 ∨ op = 0x41#8 ∨ op = 0x42#8 then some .z
  else none

/-- The mask column of 30_encoding.md R61: the fixed bits of a word of the format. -/
def Format.mask : Format → Word
  | .r3  => 0xFFF8F8F8#32
  | .r2  => 0xFFF8F8FF#32
  | .ri  => 0xFFF800FF#32
  | .rl  => 0xFFF800FF#32
  | .sr  => 0xFFFF00F8#32
  | .si  => 0xFFFF0000#32
  | .rv  => 0xFFF8F800#32
  | .r0v => 0xFFF8FF00#32
  | .z   => 0xFFFFFFFF#32

/-- Which of `d`, `a`, `b` hold a register number in the format (30_encoding.md R61). -/
def Format.regFields (f : Format) (x : Fields) : List (BitVec 8) :=
  match f with
  | .r3  => [x.d, x.a, x.b]
  | .r2  => [x.d, x.a]
  | .ri  => [x.d]
  | .rl  => [x.d]
  | .sr  => [x.b]
  | .si  => []
  | .rv  => [x.d, x.a]
  | .r0v => [x.d]
  | .z   => []

/-- Which of `d`, `a`, `b` must be zero in the format (30_encoding.md R61). -/
def Format.zeroFields (f : Format) (x : Fields) : List (BitVec 8) :=
  match f with
  | .r3  => []
  | .r2  => [x.b]
  | .ri  => [x.b]
  | .rl  => [x.b]
  | .sr  => [x.d]
  | .si  => [x.d]
  | .rv  => []
  | .r0v => [x.a]
  | .z   => [x.d, x.a, x.b]

/-- Check (a) of 30_encoding.md R65: the opcode byte is one of the twenty of R63. -/
def Fields.opcodeDefined (x : Fields) : Bool := (formatOf x.op).isSome

/-- Check (b) of 30_encoding.md R65: no register-number field of the format is above 7. -/
def Fields.regsInRange (f : Format) (x : Fields) : Bool := (f.regFields x).all fun r => decide (r.toNat ≤ 7)

/-- Check (c) of 30_encoding.md R65: every must-be-zero field of the format is zero. -/
def Fields.zerosZero (f : Format) (x : Fields) : Bool := (f.zeroFields x).all fun z => z == 0x00#8

/-- The fields are those of a command: all three checks of 30_encoding.md R65 pass. -/
def Fields.wellFormed (x : Fields) : Bool :=
  match formatOf x.op with
  | none   => false
  | some f => x.regsInRange f && x.zerosZero f

end Sys2Proof
end

