-- ==== Sys2Proof/Decode.lean ====
section
/-!
DEFINITION. The decoder, total on 32-bit words (30_encoding.md R64), naming why a word is illegal (R65), and the
encoder, written from the format table (R61), the opcode map (R63) and the field columns (R68).
-/
namespace Sys2Proof

/-- The three ways a word can be illegal (30_encoding.md R65). The name is for the reader and the tests: the
block raises ILLEGAL_CMD for all three alike. Where a word is illegal in more than one way the first check to
fail in the order `d`, `a`, `b` names it (DESIGN CHOICE, log entry 8). -/
inductive IllegalWord where
  /-- (a) the opcode byte is not one of the twenty. -/
  | unknownOpcode
  /-- (b) a register-number field is above 7. -/
  | registerAbove7
  /-- (c) a must-be-zero field is not zero. -/
  | fieldNotZero
  deriving DecidableEq, Repr

/-- The fields of a word (30_encoding.md R60): `op = w[31:24]`, `d = w[23:16]`, `a = w[15:8]`, `b = w[7:0]`. -/
def fieldsOfWord (w : Word) : Fields :=
  { op := w.extractLsb' 24 8, d := w.extractLsb' 16 8, a := w.extractLsb' 8 8, b := w.extractLsb' 0 8 }

/-- The word of four fields (30_encoding.md R68): `(op << 24) | (d << 16) | (a << 8) | b`. -/
def wordOfFields (x : Fields) : Word :=
  (x.op.setWidth 32 <<< 24) ||| (x.d.setWidth 32 <<< 16) ||| (x.a.setWidth 32 <<< 8) ||| x.b.setWidth 32

/-- A register-number field: `field[2:0]` with `field[7:3]` required to be zero (30_encoding.md R62). -/
def regField (v : BitVec 8) : Except IllegalWord Reg :=
  if h : v.toNat < 8 then .ok ⟨v.toNat, h⟩ else .error .registerAbove7

/-- A must-be-zero field (30_encoding.md R61). -/
def zeroField (v : BitVec 8) : Except IllegalWord Unit :=
  if v = 0x00#8 then .ok () else .error .fieldNotZero

/-- The register field as the encoder writes it: three significant bits, five zero bits (30_encoding.md R61). -/
def fieldOfReg (r : Reg) : BitVec 8 := BitVec.ofNat 8 r.val

/-- Format R3: `d` = rd, `a` = rs1, `b` = rs2 (30_encoding.md R61). -/
def decodeR3 (k : Reg → Reg → Reg → Instr) (x : Fields) : Except IllegalWord Instr := do
  let rd ← regField x.d
  let rs1 ← regField x.a
  let rs2 ← regField x.b
  .ok (k rd rs1 rs2)

/-- Format R2: `d` = rd, `a` = rs1, `b` zero (30_encoding.md R61). -/
def decodeR2 (k : Reg → Reg → Instr) (x : Fields) : Except IllegalWord Instr := do
  let rd ← regField x.d
  let rs1 ← regField x.a
  zeroField x.b
  .ok (k rd rs1)

/-- Formats RI and RL: `d` = rd, `a` = an 8-bit immediate or element index, `b` zero (30_encoding.md R61). -/
def decodeRI (k : Reg → BitVec 8 → Instr) (x : Fields) : Except IllegalWord Instr := do
  let rd ← regField x.d
  zeroField x.b
  .ok (k rd x.a)

/-- Format SR: `d` zero, `a` = idx, `b` = rs (30_encoding.md R61). -/
def decodeSR (k : Index → Reg → Instr) (x : Fields) : Except IllegalWord Instr := do
  zeroField x.d
  let rs ← regField x.b
  .ok (k x.a rs)

/-- Format SI: `d` zero, `a` = idx, `b` = imm8 (30_encoding.md R61). -/
def decodeSI (k : Index → Elem → Instr) (x : Fields) : Except IllegalWord Instr := do
  zeroField x.d
  .ok (k x.a x.b)

/-- Format RV: `d` = rd, `a` = rs, `b` = len (30_encoding.md R61). -/
def decodeRV (k : Reg → Reg → Count → Instr) (x : Fields) : Except IllegalWord Instr := do
  let rd ← regField x.d
  let rs ← regField x.a
  .ok (k rd rs x.b)

/-- Format R0V: `d` = rd, `a` zero, `b` = len (30_encoding.md R61). -/
def decodeR0V (k : Reg → Count → Instr) (x : Fields) : Except IllegalWord Instr := do
  let rd ← regField x.d
  zeroField x.a
  .ok (k rd x.b)

/-- Format Z: `d`, `a` and `b` all zero (30_encoding.md R61). -/
def decodeZ (i : Instr) (x : Fields) : Except IllegalWord Instr := do
  zeroField x.d
  zeroField x.a
  zeroField x.b
  .ok i

/-- The opcode map (30_encoding.md R63) applied to the fields of a word. -/
def decodeFields (x : Fields) : Except IllegalWord Instr :=
  match x.op with
  | 0x01#8 => decodeR3 .gfadd x
  | 0x02#8 => decodeR3 .gfmul x
  | 0x03#8 => decodeR2 .gfinv x
  | 0x04#8 => decodeR3 .gfdiv x
  | 0x10#8 => decodeRI .ldi x
  | 0x11#8 => decodeRI .ldc x
  | 0x12#8 => decodeRI .ldx x
  | 0x13#8 => decodeRI .ldy x
  | 0x14#8 => decodeSR .stc x
  | 0x15#8 => decodeSR .stx x
  | 0x16#8 => decodeSR .sty x
  | 0x17#8 => decodeSI .setc x
  | 0x18#8 => decodeSI .setx x
  | 0x19#8 => decodeSI .sety x
  | 0x20#8 => decodeRV .eval x
  | 0x30#8 => decodeR0V .interp0 x
  | 0x31#8 => decodeRV .interp x
  | 0x40#8 => decodeZ .nop x
  | 0x41#8 => decodeZ .clrerr x
  | 0x42#8 => decodeZ .wipe x
  | _      => .error .unknownOpcode

/-- The decoder (30_encoding.md R64): every 32-bit word is a command with its operands, or illegal. -/
def decode (w : Word) : Except IllegalWord Instr := decodeFields (fieldsOfWord w)

/-- The opcode byte of a command (30_encoding.md R63). -/
def Instr.opcode : Instr → BitVec 8
  | .gfadd _ _ _  => 0x01#8
  | .gfmul _ _ _  => 0x02#8
  | .gfinv _ _    => 0x03#8
  | .gfdiv _ _ _  => 0x04#8
  | .ldi _ _      => 0x10#8
  | .ldc _ _      => 0x11#8
  | .ldx _ _      => 0x12#8
  | .ldy _ _      => 0x13#8
  | .stc _ _      => 0x14#8
  | .stx _ _      => 0x15#8
  | .sty _ _      => 0x16#8
  | .setc _ _     => 0x17#8
  | .setx _ _     => 0x18#8
  | .sety _ _     => 0x19#8
  | .eval _ _ _   => 0x20#8
  | .interp0 _ _  => 0x30#8
  | .interp _ _ _ => 0x31#8
  | .nop          => 0x40#8
  | .clrerr       => 0x41#8
  | .wipe         => 0x42#8

/-- The fields of a command, as the columns `d`, `a`, `b` of 30_encoding.md R61 and R68 place its operands. -/
def fieldsOfInstr (i : Instr) : Fields :=
  match i with
  | .gfadd rd rs1 rs2 => { op := i.opcode, d := fieldOfReg rd, a := fieldOfReg rs1, b := fieldOfReg rs2 }
  | .gfmul rd rs1 rs2 => { op := i.opcode, d := fieldOfReg rd, a := fieldOfReg rs1, b := fieldOfReg rs2 }
  | .gfinv rd rs1     => { op := i.opcode, d := fieldOfReg rd, a := fieldOfReg rs1, b := 0x00#8 }
  | .gfdiv rd rs1 rs2 => { op := i.opcode, d := fieldOfReg rd, a := fieldOfReg rs1, b := fieldOfReg rs2 }
  | .ldi rd imm8      => { op := i.opcode, d := fieldOfReg rd, a := imm8, b := 0x00#8 }
  | .ldc rd idx       => { op := i.opcode, d := fieldOfReg rd, a := idx, b := 0x00#8 }
  | .ldx rd idx       => { op := i.opcode, d := fieldOfReg rd, a := idx, b := 0x00#8 }
  | .ldy rd idx       => { op := i.opcode, d := fieldOfReg rd, a := idx, b := 0x00#8 }
  | .stc idx rs       => { op := i.opcode, d := 0x00#8, a := idx, b := fieldOfReg rs }
  | .stx idx rs       => { op := i.opcode, d := 0x00#8, a := idx, b := fieldOfReg rs }
  | .sty idx rs       => { op := i.opcode, d := 0x00#8, a := idx, b := fieldOfReg rs }
  | .setc idx imm8    => { op := i.opcode, d := 0x00#8, a := idx, b := imm8 }
  | .setx idx imm8    => { op := i.opcode, d := 0x00#8, a := idx, b := imm8 }
  | .sety idx imm8    => { op := i.opcode, d := 0x00#8, a := idx, b := imm8 }
  | .eval rd rs len   => { op := i.opcode, d := fieldOfReg rd, a := fieldOfReg rs, b := len }
  | .interp0 rd len   => { op := i.opcode, d := fieldOfReg rd, a := 0x00#8, b := len }
  | .interp rd rs len => { op := i.opcode, d := fieldOfReg rd, a := fieldOfReg rs, b := len }
  | .nop              => { op := i.opcode, d := 0x00#8, a := 0x00#8, b := 0x00#8 }
  | .clrerr           => { op := i.opcode, d := 0x00#8, a := 0x00#8, b := 0x00#8 }
  | .wipe             => { op := i.opcode, d := 0x00#8, a := 0x00#8, b := 0x00#8 }

/-- The encoder (30_encoding.md R68): the word of a command. -/
def encode (i : Instr) : Word := wordOfFields (fieldsOfInstr i)

/-- The word of `nbits` bits, bit 0 the least significant; the bits above `nbits` are zero. -/
def tableWord (nbits w : Nat) : Word := BitVec.ofNat 32 (w % 2 ^ nbits)

/-- What the decoder reads from a word numbered as spec/opcode_table.json numbers it. -/
def decodeTableWord (nbits w : Nat) : Option Instr := (decode (tableWord nbits w)).toOption

end Sys2Proof
end

