-- ==== Sys2Proof/Machine/State.lean ====
section
/-!
DEFINITION. The state of the block as plain data (10_state.md R20 to R28), the reasons a step of the model can
stop, and the state after reset.
-/
namespace Sys2Proof.Machine

/-- One vector memory: the elements that are not 0x00, by index, in one canonical form (`Memory.wf`, Ops.lean).
An index that is not listed reads 0x00, the reset value of every element (10_state.md R28; log entry 3). -/
abbrev Memory := List Host.Cell

/-- The vector memories (10_state.md R22). -/
inductive VecMem where
  /-- Polynomial coefficients. -/
  | cv
  /-- x-coordinates. -/
  | xv
  /-- y-coordinates. -/
  | yv
  deriving DecidableEq, Repr

/-- The fault causes of the block (60_exceptions.md R161). A cause is what STATUS records; it never ends a run. -/
inductive Cause where
  /-- The value while ERR = 0. -/
  | none
  /-- The word decodes to `Illegal`. -/
  | illegalCmd
  /-- GFINV of zero, GFDIV by zero. -/
  | invZero
  /-- EVAL, INTERP0 or INTERP with a zero count. -/
  | badLen
  /-- INTERP0 or INTERP with a zero x-coordinate. -/
  | zeroX
  /-- INTERP0 or INTERP with two equal x-coordinates. -/
  | dupX
  deriving DecidableEq, Repr

/-- The fields of the STATUS register that hold state (10_state.md R23): ERR is bit 0, CAUSE bits 7:4, EINFO bits
15:8. Its other bits have no storage and read as zero (`Status.word`, Flags.lean). -/
structure Status where
  err   : Bool
  cause : Cause
  einfo : BitVec 8
  deriving DecidableEq, Repr

/-- What the host does next to the block (20_memory.md R56): presents a command word, or asserts `rst`
(70_reset_and_hazards.md R190). A read of the read port changes nothing (R44) and is no input of the step. -/
inductive HostInput where
  | command (w : Word)
  | reset
  deriving DecidableEq, Repr

/-- The state of the block (10_state.md R20), and what the host is yet to give it. -/
structure State where
  /-- The scalar registers F0 to F7 (10_state.md R21). -/
  f      : Vector Elem 8
  /-- The coefficients (10_state.md R22). -/
  cv     : Memory
  /-- The x-coordinates (10_state.md R22). -/
  xv     : Memory
  /-- The y-coordinates (10_state.md R22). -/
  yv     : Memory
  /-- The status register (10_state.md R23). -/
  status : Status
  /-- The model's own field: the host's inputs to come, the next one first. The command word is an input of the
  step (10_state.md R27), and this is where the step takes it from (DESIGN CHOICE, log entry 1). No command reads
  or changes it. -/
  host   : List HostInput
  deriving DecidableEq, Repr

/-- Why the model can stop. The block itself never does (20_memory.md R56). -/
inductive Fault where
  /-- Raised by INTERP0 and INTERP if the interpolation formula needs the inverse of zero after the checks of
  43_lagrange_interpolation.md R131 have passed. By R135 that cannot happen. Safe: the model stops where the spec
  gives `gf_inv` no value (log entry 5). -/
  | inversionOutsideDomain
  deriving DecidableEq, Repr

/-- Why the model can refuse an instruction. -/
inductive Refusal where
  /-- Raised by `exec` alone, for an instruction that has no meaning yet. No arm raises it in this model. Safe. -/
  | notModelled (mnemonic : String)
  deriving DecidableEq, Repr

/-- The outcome of a step or of a meaning. -/
abbrev Outcome := Host.Outcome State Fault Refusal

/-- STATUS = 0x00000000 (10_state.md R28). -/
def Status.clear : Status := { err := false, cause := .none, einfo := 0x00#8 }

/-- The state after reset (10_state.md R28; 70_reset_and_hazards.md R190): every register, every vector element
and STATUS zero; the host has presented nothing yet. -/
def State.reset : State :=
  { f := Vector.replicate 8 0x00#8, cv := [], xv := [], yv := [], status := Status.clear, host := [] }

end Sys2Proof.Machine
end

