-- ==== Sys2Proof/Machine/Ops.lean ====
section
/-!
DEFINITION. The named operations over vector memories and registers, fault entry and the return from it
(60_exceptions.md R163, R165), the error latch as a meaning meets it (R164), and reset (70_reset_and_hazards.md
R190). Every read and write of the state by a meaning goes through these.
-/
namespace Sys2Proof.Machine

/-- One element of a memory: the first entry with that index, 0x00 if there is none (10_state.md R28;
20_memory.md R47). -/
def Memory.read : Memory → Nat → Elem
  | [], _ => 0x00#8
  | (k, v) :: m, i => if k = i then v else Memory.read m i

/-- Put an entry in its place by rising index. -/
def Memory.insert (i : Nat) (v : Elem) : Memory → Memory
  | [] => [(i, v)]
  | c :: m => if i < c.1 then (i, v) :: c :: m else c :: Memory.insert i v m

/-- Take the entries of one index out. -/
def Memory.erase (i : Nat) (m : Memory) : Memory := m.filter fun c => c.1 != i

/-- Write one element and no other (41_data_movement.md R110). Writing 0x00, what an unlisted index reads as,
leaves no entry, so equal memories are equal lists. -/
def Memory.write (m : Memory) (i : Nat) (v : Elem) : Memory :=
  if v = 0x00#8 then Memory.erase i m else Memory.insert i v (Memory.erase i m)

/-- Every index is above `lo` or, for `none`, any; then strictly rising, below 256, and no 0x00 entry. -/
def Memory.wfFrom : Option Nat → Memory → Bool
  | _, [] => true
  | lo, (k, v) :: m =>
    (match lo with | none => true | some b => decide (b < k)) && decide (k < 256) && (v != 0x00#8)
      && Memory.wfFrom (some k) m

/-- The canonical form of a vector memory: indices strictly rising and below 256 (10_state.md R22), and no entry
equal to what an unlisted index reads as. -/
def Memory.wf (m : Memory) : Bool := Memory.wfFrom none m

/-- A memory whose every element is 0x00 (10_state.md R28; 44_system.md R152). -/
def Memory.zero : Memory := []

/-- The memory a name stands for (10_state.md R22). -/
def State.mem (s : State) (m : VecMem) : Memory :=
  match m with
  | .cv => s.cv
  | .xv => s.xv
  | .yv => s.yv

/-- `MemRead((V, i), 1)` (00_scope.md R8; 41_data_movement.md R110). -/
def State.elem (s : State) (m : VecMem) (i : Nat) : Elem := Memory.read (s.mem m) i

/-- `MemWrite((V, i), 1, v)` (00_scope.md R8; 41_data_movement.md R110). -/
def State.setElem (s : State) (m : VecMem) (i : Nat) (v : Elem) : State :=
  match m with
  | .cv => { s with cv := Memory.write s.cv i v }
  | .xv => { s with xv := Memory.write s.xv i v }
  | .yv => { s with yv := Memory.write s.yv i v }

/-- `F[r]` (00_scope.md R8; 10_state.md R21): no register is hardwired. -/
def State.reg (s : State) (r : Reg) : Elem := s.f[r]

/-- `F[r] <- v` (00_scope.md R8; 10_state.md R21). -/
def State.setReg (s : State) (r : Reg) (v : Elem) : State := { s with f := s.f.set r v }

/-- Fault entry (60_exceptions.md R163): `ERR <- 1; CAUSE <- code; EINFO <- info`, and nothing else. -/
def State.raise (s : State) (c : Cause) (info : BitVec 8) : State :=
  { s with status := { err := true, cause := c, einfo := info } }

/-- The return from a fault (60_exceptions.md R165; 44_system.md R151): ERR, CAUSE and EINFO become zero and
nothing else changes, because fault entry saved nothing. -/
def State.clearError (s : State) : State := { s with status := Status.clear }

/-- Write 0x00 to every register and every vector element; STATUS is not changed (44_system.md R152). -/
def State.wipe (s : State) : State :=
  { s with
    f := Vector.replicate 8 0x00#8, cv := Memory.zero, xv := Memory.zero, yv := Memory.zero }

/-- `rst = 1` at a rising edge of `clk` (70_reset_and_hazards.md R190): all state of the block takes its reset
value. What the host is yet to give is not the block's and stays (log entry 12). -/
def State.resetBlock (s : State) : State := { State.reset with host := s.host }

/-- The error latch as a command's own rule meets it ("executes only while STATUS.ERR = 0, else dropped";
60_exceptions.md R164): a dropped command changes no state at all. -/
def State.unlessLatched (s : State) (effect : State → Outcome) : Outcome :=
  if s.status.err then .next s else effect s

end Sys2Proof.Machine
end

