-- ==== Sys2Proof/Machine/Operands.lean ====
section
/-!
DEFINITION. The operand forms of the commands (30_encoding.md R62; 41_data_movement.md R110): register source and
destination, element at an absolute index, immediate, element count, and the vector operands `V[0..len-1]`. The
immediate is a field element as it stands and needs no operation.
-/
namespace Sys2Proof.Machine

/-- A source register's value `F[rs]` (30_encoding.md R62). -/
def sourceReg (s : State) (rs : Reg) : Elem := s.reg rs

/-- Write a result to the destination register and to nothing else. Its operands have been read by then, so a
destination may equal a source (10_state.md R21). -/
def writeDest (s : State) (rd : Reg) (v : Elem) : Outcome := .next (s.setReg rd v)

/-- The element at the absolute index `idx`, taken as an unsigned integer (41_data_movement.md R110). -/
def elementAt (s : State) (m : VecMem) (idx : Index) : Elem := s.elem m idx.toNat

/-- Write the element at the absolute index `idx` and no other (41_data_movement.md R110). -/
def writeElement (s : State) (m : VecMem) (idx : Index) (v : Elem) : Outcome := .next (s.setElem m idx.toNat v)

/-- The vector operand `V[0..len-1]`: elements 0 to `len - 1` in index order and no other (10_state.md R22). -/
def vectorOperand (s : State) (m : VecMem) (len : Count) : List Elem :=
  (List.range len.toNat).map fun i => s.elem m i

/-- EINFO for a register (60_exceptions.md R161): its number, 0 to 7. -/
def regInfo (r : Reg) : BitVec 8 := BitVec.ofNat 8 r.val

end Sys2Proof.Machine
end

