-- ==== Sys2Proof/Machine/DataMovement.lean ====
section
/-!
DEFINITION. The commands LDI, LDC, LDX, LDY, STC, STX, STY, SETC, SETX and SETY (41_data_movement.md R100 to R109).
Each copies one 8-bit element unchanged and none faults in execution.
-/
namespace Sys2Proof.Machine

/-- LDI rd, imm8 (R100): `F[rd] <- imm8`. -/
def execLdi (rd : Reg) (imm8 : Elem) (s : State) : Outcome :=
  s.unlessLatched fun s => writeDest s rd imm8

/-- LDC rd, idx (R101): `F[rd] <- CV[idx]`. -/
def execLdc (rd : Reg) (idx : Index) (s : State) : Outcome :=
  s.unlessLatched fun s => writeDest s rd (elementAt s .cv idx)

/-- LDX rd, idx (R102): `F[rd] <- XV[idx]`. -/
def execLdx (rd : Reg) (idx : Index) (s : State) : Outcome :=
  s.unlessLatched fun s => writeDest s rd (elementAt s .xv idx)

/-- LDY rd, idx (R103): `F[rd] <- YV[idx]`. -/
def execLdy (rd : Reg) (idx : Index) (s : State) : Outcome :=
  s.unlessLatched fun s => writeDest s rd (elementAt s .yv idx)

/-- STC idx, rs (R104): `CV[idx] <- F[rs]`. -/
def execStc (idx : Index) (rs : Reg) (s : State) : Outcome :=
  s.unlessLatched fun s => writeElement s .cv idx (sourceReg s rs)

/-- STX idx, rs (R105): `XV[idx] <- F[rs]`; the value is not checked here. -/
def execStx (idx : Index) (rs : Reg) (s : State) : Outcome :=
  s.unlessLatched fun s => writeElement s .xv idx (sourceReg s rs)

/-- STY idx, rs (R106): `YV[idx] <- F[rs]`. -/
def execSty (idx : Index) (rs : Reg) (s : State) : Outcome :=
  s.unlessLatched fun s => writeElement s .yv idx (sourceReg s rs)

/-- SETC idx, imm8 (R107): `CV[idx] <- imm8`. -/
def execSetc (idx : Index) (imm8 : Elem) (s : State) : Outcome :=
  s.unlessLatched fun s => writeElement s .cv idx imm8

/-- SETX idx, imm8 (R108): `XV[idx] <- imm8`; the value is not checked here. -/
def execSetx (idx : Index) (imm8 : Elem) (s : State) : Outcome :=
  s.unlessLatched fun s => writeElement s .xv idx imm8

/-- SETY idx, imm8 (R109): `YV[idx] <- imm8`. -/
def execSety (idx : Index) (imm8 : Elem) (s : State) : Outcome :=
  s.unlessLatched fun s => writeElement s .yv idx imm8

end Sys2Proof.Machine
end

