-- ==== Sys2Proof/Machine/Field.lean ====
section
/-!
DEFINITION. The field functions of GF(2^8) (40_field_arithmetic.md R80 to R87): the definitions the source makes
normative, and beside them the reference realisation of the multiplier (R82). Nothing here reads the state.
-/
namespace Sys2Proof.Machine

/-- `gf_add` (R80): bitwise exclusive or; also the subtraction of the field. -/
def gfAdd (a b : Elem) : Elem := a ^^^ b

/-- `P[k]` of R81: the exclusive or of `a[i] & b[j]` over all `0 ≤ i, j ≤ 7` with `i + j = k`. A bit of an 8-bit
value at an index above 7 is read as false. -/
def productBit (a b : Elem) (k : Nat) : Bool :=
  (List.range 8).foldl (fun acc i => acc ^^ (decide (i ≤ k) && a.getLsbD i && b.getLsbD (k - i))) false

/-- The product over GF(2), the 15-bit value `P` of R81. -/
def carrylessProduct (a b : Elem) : BitVec 15 :=
  (List.range 15).foldl (fun p k => if productBit a b k then p ||| (1#15 <<< k) else p) 0#15

/-- One step of the reduction of R81: if `P[k] = 1` then `P <- P ^ (0x11B << (k - 8))`. -/
def reduceBit (p : BitVec 15) (k : Nat) : BitVec 15 :=
  if p.getLsbD k then p ^^^ (Config.redPoly.setWidth 15 <<< (k - 8)) else p

/-- `gf_mul` (R81): the product over GF(2), reduced for `k` from 14 down to 8, bits 7:0. -/
def gfMul (a b : Elem) : Elem :=
  ([14, 13, 12, 11, 10, 9, 8].foldl reduceBit (carrylessProduct a b)).extractLsb' 0 8

/-- `xtime` (R82): multiplication by the element 0x02, with a mask and no branch. -/
def xtime (a : Elem) : Elem := (a <<< 1) ^^^ (Config.redLow &&& rep8 (a.getLsbD 7))

/-- The temporaries of the multiplier unit (R82). They do not survive a command (10_state.md R26). -/
structure MulTemps where
  acc : Elem
  aa  : Elem
  bb  : Elem
  deriving DecidableEq, Repr

/-- One of the eight iterations of R82. -/
def mulIteration (t : MulTemps) : MulTemps :=
  { acc := t.acc ^^^ (t.aa &&& rep8 (t.bb.getLsbD 0)), aa := xtime t.aa, bb := t.bb >>> 1 }

/-- The reference realisation of the multiplier (R82): the bit-serial Russian-peasant loop. -/
def gfMulSerial (a b : Elem) : Elem :=
  ((List.range 8).foldl (fun t _ => mulIteration t) { acc := 0x00#8, aa := a, bb := b }).acc

/-- `a^n` (R83): for `n ≥ 1`, `a` multiplied by itself `n - 1` times; the empty product is the identity 0x01. -/
def gfPow (a : Elem) : Nat → Elem
  | 0 => 0x01#8
  | n + 1 => gfMul (gfPow a n) a

/-- The chain of R85: `r <- a`, six times `r <- r·r·a`, once `r <- r·r`. On 0x00 it yields 0x00, which is not a
value of `gf_inv` (R84; 90_conflicts.md C9). -/
def inverterChain (a : Elem) : Elem :=
  let r := (List.range 6).foldl (fun r _ => gfMul (gfMul r r) a) a
  gfMul r r

/-- `gf_inv` (R84): a partial function with no value at 0x00, computed by the chain of R85. -/
def gfInv (a : Elem) : Option Elem := if a = 0x00#8 then none else some (inverterChain a)

/-- `gf_div` (R86): `gf_mul(a, gf_inv(b))`, with no value for `b = 0x00`. -/
def gfDiv (a b : Elem) : Option Elem := (gfInv b).map fun r => gfMul a r

end Sys2Proof.Machine
end

