-- ==== Sys2Proof/Machine/Polynomial.lean ====
section
/-!
DEFINITION. The functions of the evaluator (42_polynomial_evaluator.md R120) and of the interpolation engine
(43_lagrange_interpolation.md R130), and the engine's checks on its x-coordinates (R131). Nothing here reads the
state.
-/
namespace Sys2Proof.Machine

/-- `poly_eval(c, x)` (R120), the coefficients from `c_0`: Horner's method from the coefficient of the highest
degree, `y <- c[d]`, then `y <- gf_add(gf_mul(y, x), c[i])` down to `i = 0`. The empty sequence is no polynomial
and has no value (log entry 14). -/
def polyEval (c : List Elem) (x : Elem) : Option Elem :=
  match c with
  | [] => none
  | [c0] => some c0
  | c0 :: c1 :: cs => (polyEval (c1 :: cs) x).map fun y => gfAdd (gfMul y x) c0

/-- The basis value `L_i(xstar)` (R130): from 0x01, for each `j ≠ i`, multiply by
`gf_mul(gf_add(xstar, x_j), gf_inv(gf_add(x_i, x_j)))`. No value if an inversion is outside its domain. -/
def lagrangeBasis (xs : List Elem) (xstar : Elem) (i : Nat) : Option Elem :=
  (List.range xs.length).foldlM (init := 0x01#8) fun acc j =>
    if j = i then some acc
    else (gfInv (gfAdd (xs.getD i 0x00#8) (xs.getD j 0x00#8))).map fun d =>
      gfMul acc (gfMul (gfAdd xstar (xs.getD j 0x00#8)) d)

/-- `lagrange(xs, ys, xstar)` (R130): from 0x00, add `gf_mul(L_i(xstar), y_i)` for each `i`. It is a function of
two sequences of one length `n ≥ 1` and has no value for others, nor where two x-coordinates coincide
(93_implementation_defined.md U4). -/
def lagrange (xs ys : List Elem) (xstar : Elem) : Option Elem :=
  if xs.length = 0 ∨ ys.length ≠ xs.length then none
  else (List.range xs.length).foldlM (init := 0x00#8) fun acc i =>
    (lagrangeBasis xs xstar i).map fun l => gfAdd acc (gfMul l (ys.getD i 0x00#8))

/-- The least `i` with `xs[i] = 0x00` (R131 check 3). -/
def firstZero (xs : List Elem) : Option Nat :=
  (List.range xs.length).find? fun i => xs.getD i 0x00#8 == 0x00#8

/-- The least `j` such that `xs[i] = xs[j]` for some `i < j` (R131 check 4). -/
def firstDuplicate (xs : List Elem) : Option Nat :=
  (List.range xs.length).find? fun j => (List.range j).any fun i => xs.getD i 0x00#8 == xs.getD j 0x00#8

/-- `check_xs` (R131) on `XV[0..len-1]`: the fault it raises with its EINFO, or none. The order is BAD_LEN, ZERO_X,
DUP_X (60_exceptions.md R162). -/
def checkXs (xs : List Elem) : Option (Cause × BitVec 8) :=
  if xs.length = 0 then some (.badLen, 0x00#8)
  else match firstZero xs with
    | some i => some (.zeroX, BitVec.ofNat 8 i)
    | none => match firstDuplicate xs with
      | some j => some (.dupX, BitVec.ofNat 8 j)
      | none => none

end Sys2Proof.Machine
end

