-- ==== Sys2Proof/Machine/Evaluator.lean ====
section
/-!
DEFINITION. The command EVAL (42_polynomial_evaluator.md R121 to R123).
-/
namespace Sys2Proof.Machine

/-- EVAL rd, rs, len (R121): `F[rd] <- poly_eval(CV[0..len-1], F[rs])`. With `len = 0` there is no coefficient, so
no value, and BAD_LEN is raised with EINFO = 0. Every coefficient and every point is accepted (R122, R123). -/
def execEval (rd rs : Reg) (len : Count) (s : State) : Outcome :=
  s.unlessLatched fun s =>
    match polyEval (vectorOperand s .cv len) (sourceReg s rs) with
    | none   => .next (s.raise .badLen 0x00#8)
    | some y => writeDest s rd y

end Sys2Proof.Machine
end

