-- ==== Sys2Proof/Machine/FieldArithmetic.lean ====
section
/-!
DEFINITION. The commands GFADD, GFMUL, GFINV and GFDIV (40_field_arithmetic.md R88 to R91).
-/
namespace Sys2Proof.Machine

/-- GFADD rd, rs1, rs2 (R88): `F[rd] <- gf_add(F[rs1], F[rs2])`. -/
def execGfadd (rd rs1 rs2 : Reg) (s : State) : Outcome :=
  s.unlessLatched fun s => writeDest s rd (gfAdd (sourceReg s rs1) (sourceReg s rs2))

/-- GFMUL rd, rs1, rs2 (R89): `F[rd] <- gf_mul(F[rs1], F[rs2])`. -/
def execGfmul (rd rs1 rs2 : Reg) (s : State) : Outcome :=
  s.unlessLatched fun s => writeDest s rd (gfMul (sourceReg s rs1) (sourceReg s rs2))

/-- GFINV rd, rs1 (R90): `F[rd] <- gf_inv(F[rs1])`, or INV_ZERO with EINFO = rs1 where it has no value. -/
def execGfinv (rd rs1 : Reg) (s : State) : Outcome :=
  s.unlessLatched fun s =>
    match gfInv (sourceReg s rs1) with
    | none   => .next (s.raise .invZero (regInfo rs1))
    | some v => writeDest s rd v

/-- GFDIV rd, rs1, rs2 (R91): `F[rd] <- gf_mul(F[rs1], gf_inv(F[rs2]))`, or INV_ZERO with EINFO = rs2 for a zero
divisor, whatever the dividend. -/
def execGfdiv (rd rs1 rs2 : Reg) (s : State) : Outcome :=
  s.unlessLatched fun s =>
    match gfDiv (sourceReg s rs1) (sourceReg s rs2) with
    | none   => .next (s.raise .invZero (regInfo rs2))
    | some v => writeDest s rd v

end Sys2Proof.Machine
end

