-- ==== Sys2Proof/Machine/Interpolation.lean ====
section
/-!
DEFINITION. The commands INTERP0 and INTERP (43_lagrange_interpolation.md R131 to R135).
-/
namespace Sys2Proof.Machine

/-- The engine: `check_xs(len)`, and if it raises nothing `F[rd] <- lagrange(XV[0..len-1], YV[0..len-1], xstar)`
(R132, R133). After the checks `lagrange` has a value (R135); if it had none the model would stop, since the spec
gives the inverse of zero no value. -/
def interpolateTo (rd : Reg) (xstar : Elem) (len : Count) (s : State) : Outcome :=
  match checkXs (vectorOperand s .xv len) with
  | some (cause, info) => .next (s.raise cause info)
  | none =>
    match lagrange (vectorOperand s .xv len) (vectorOperand s .yv len) xstar with
    | some r => writeDest s rd r
    | none   => .fault .inversionOutsideDomain

/-- INTERP0 rd, len (R132): the point is 0x00. -/
def execInterp0 (rd : Reg) (len : Count) (s : State) : Outcome :=
  s.unlessLatched fun s => interpolateTo rd 0x00#8 len s

/-- INTERP rd, rs, len (R133): the point is `F[rs]`, read before the result is written. -/
def execInterp (rd rs : Reg) (len : Count) (s : State) : Outcome :=
  s.unlessLatched fun s => interpolateTo rd (sourceReg s rs) len s

end Sys2Proof.Machine
end

