-- ==== Sys2Proof/Machine/System.lean ====
section
/-!
DEFINITION. The commands NOP, CLRERR and WIPE (44_system.md R150 to R152). CLRERR and WIPE execute whatever
STATUS.ERR is (60_exceptions.md R164); NOP dropped and NOP executed are the same.
-/
namespace Sys2Proof.Machine

/-- NOP (R150): no state changes. -/
def execNop (s : State) : Outcome := s.unlessLatched fun s => .next s

/-- CLRERR (R151): STATUS becomes zero; F, CV, XV and YV are not touched. -/
def execClrerr (s : State) : Outcome := .next s.clearError

/-- WIPE (R152): F, CV, XV and YV become zero; STATUS is not touched. -/
def execWipe (s : State) : Outcome := .next s.wipe

end Sys2Proof.Machine
end

