-- ==== Sys2Proof/Machine/Dispatch.lean ====
section
/-!
DEFINITION. The meaning of each command, one arm per row of the opcode table (30_encoding.md R63).
-/
namespace Sys2Proof.Machine

/-- The effect of a decoded command on the state. -/
def exec (i : Instr) (s : State) : Host.Outcome State Fault Refusal :=
  match i with
  | .gfadd rd rs1 rs2 => Sys2Proof.Machine.execGfadd rd rs1 rs2 s
  | .gfmul rd rs1 rs2 => Sys2Proof.Machine.execGfmul rd rs1 rs2 s
  | .gfinv rd rs1 => Sys2Proof.Machine.execGfinv rd rs1 s
  | .gfdiv rd rs1 rs2 => Sys2Proof.Machine.execGfdiv rd rs1 rs2 s
  | .ldi rd imm8 => Sys2Proof.Machine.execLdi rd imm8 s
  | .ldc rd idx => Sys2Proof.Machine.execLdc rd idx s
  | .ldx rd idx => Sys2Proof.Machine.execLdx rd idx s
  | .ldy rd idx => Sys2Proof.Machine.execLdy rd idx s
  | .stc idx rs => Sys2Proof.Machine.execStc idx rs s
  | .stx idx rs => Sys2Proof.Machine.execStx idx rs s
  | .sty idx rs => Sys2Proof.Machine.execSty idx rs s
  | .setc idx imm8 => Sys2Proof.Machine.execSetc idx imm8 s
  | .setx idx imm8 => Sys2Proof.Machine.execSetx idx imm8 s
  | .sety idx imm8 => Sys2Proof.Machine.execSety idx imm8 s
  | .eval rd rs len => Sys2Proof.Machine.execEval rd rs len s
  | .interp0 rd len => Sys2Proof.Machine.execInterp0 rd len s
  | .interp rd rs len => Sys2Proof.Machine.execInterp rd rs len s
  | .nop => Sys2Proof.Machine.execNop s
  | .clrerr => Sys2Proof.Machine.execClrerr s
  | .wipe => Sys2Proof.Machine.execWipe s

end Sys2Proof.Machine
end

