-- ==== Sys2Proof/Machine/Accept.lean ====
section
/-!
DEFINITION. One accepted command word (60_exceptions.md R164), one host input, and the command's latency
(70_reset_and_hazards.md R199).
-/
namespace Sys2Proof.Machine

/-- The exact word CLRERR, which executes under the latch (60_exceptions.md R164). -/
def clrerrWord : Word := 0x41000000#32

/-- The exact word WIPE, which executes under the latch (60_exceptions.md R164). -/
def wipeWord : Word := 0x42000000#32

/-- ILLEGAL_CMD with EINFO = `w[31:24]` (30_encoding.md R65; 60_exceptions.md R161). -/
def raiseIllegal (w : Word) (s : State) : Outcome := .next (s.raise .illegalCmd (fieldsOfWord w).op)

/-- One step for an accepted word (60_exceptions.md R164). The latch is looked at before the word is decoded, so a
dropped word is not decoded for faults. -/
def acceptWord (w : Word) (s : State) : Outcome :=
  if s.status.err then
    if w = clrerrWord then exec .clrerr s
    else if w = wipeWord then exec .wipe s
    else .next s
  else
    match decode w with
    | .error _ => raiseIllegal w s
    | .ok i    => exec i s

/-- What one input of the host does to the block (20_memory.md R56; 70_reset_and_hazards.md R190). -/
def hostStep (inp : HostInput) (s : State) : Outcome :=
  match inp with
  | .command w => acceptWord w s
  | .reset     => .next s.resetBlock

/-- The `len` field of a command that has one, zero for the others (30_encoding.md R61). -/
def lenOfWord (w : Word) : BitVec 8 :=
  match decode w with
  | .ok (.eval _ _ len)   => len
  | .ok (.interp0 _ len)  => len
  | .ok (.interp _ _ len) => len
  | _                     => 0x00#8

/-- How many cycles `cmd_ready` is 0 for an accepted word: `LAT(op, len)` (20_memory.md R41;
70_reset_and_hazards.md R199; log entry 6). -/
def cyclesOfWord (w : Word) : Nat := Config.latency (fieldsOfWord w).op (lenOfWord w)

/-- Present a word to the block as the host's very next input. -/
def State.present (s : State) (w : Word) : State := { s with host := .command w :: s.host }

end Sys2Proof.Machine
end

