-- ==== Sys2Proof/Machine/Step.lean ====
section
/-!
DEFINITION. The step of the machine: the host's next input is taken and has its whole effect (20_memory.md R46,
R56). With no input to come the block is idle and keeps all its state (60_exceptions.md R169).
-/
namespace Sys2Proof.Machine

/-- One step. -/
def step (s : State) : Host.Outcome State Fault Refusal :=
  match s.host with
  | []          => .next s
  | inp :: rest => hostStep inp { s with host := rest }

/-- The word, with the bits above `nbits` zero, presented as the host's next input (log entry 1). -/
def State.withFetchWord (s : State) (nbits w : Nat) : State := s.present (tableWord nbits w)

end Sys2Proof.Machine
end

