-- ==== Sys2Proof/Machine/Assembly.lean ====
section
/-!
DEFINITION. The assembly text of a command (30_encoding.md R68) and the pseudo-instructions (R69). No meaning of a
command depends on this file. Text is a list of characters. An index, an immediate or a count is printed in the
hexadecimal form R68 allows and read in either form.
-/
namespace Sys2Proof.Machine

/-- One assembly operand (30_encoding.md R68). -/
inductive AsmOperand where
  | reg (r : Reg)
  | num (v : BitVec 8)
  deriving DecidableEq, Repr

/-- The mnemonic of a command, in capitals (30_encoding.md R63, R68). -/
def mnemonicOf : Instr → String
  | .gfadd _ _ _  => "GFADD"
  | .gfmul _ _ _  => "GFMUL"
  | .gfinv _ _    => "GFINV"
  | .gfdiv _ _ _  => "GFDIV"
  | .ldi _ _      => "LDI"
  | .ldc _ _      => "LDC"
  | .ldx _ _      => "LDX"
  | .ldy _ _      => "LDY"
  | .stc _ _      => "STC"
  | .stx _ _      => "STX"
  | .sty _ _      => "STY"
  | .setc _ _     => "SETC"
  | .setx _ _     => "SETX"
  | .sety _ _     => "SETY"
  | .eval _ _ _   => "EVAL"
  | .interp0 _ _  => "INTERP0"
  | .interp _ _ _ => "INTERP"
  | .nop          => "NOP"
  | .clrerr       => "CLRERR"
  | .wipe         => "WIPE"

/-- The operands of a command in assembly order, destination first (30_encoding.md R68). -/
def asmOperandsOf : Instr → List AsmOperand
  | .gfadd rd rs1 rs2 => [.reg rd, .reg rs1, .reg rs2]
  | .gfmul rd rs1 rs2 => [.reg rd, .reg rs1, .reg rs2]
  | .gfinv rd rs1     => [.reg rd, .reg rs1]
  | .gfdiv rd rs1 rs2 => [.reg rd, .reg rs1, .reg rs2]
  | .ldi rd imm8      => [.reg rd, .num imm8]
  | .ldc rd idx       => [.reg rd, .num idx]
  | .ldx rd idx       => [.reg rd, .num idx]
  | .ldy rd idx       => [.reg rd, .num idx]
  | .stc idx rs       => [.num idx, .reg rs]
  | .stx idx rs       => [.num idx, .reg rs]
  | .sty idx rs       => [.num idx, .reg rs]
  | .setc idx imm8    => [.num idx, .num imm8]
  | .setx idx imm8    => [.num idx, .num imm8]
  | .sety idx imm8    => [.num idx, .num imm8]
  | .eval rd rs len   => [.reg rd, .reg rs, .num len]
  | .interp0 rd len   => [.reg rd, .num len]
  | .interp rd rs len => [.reg rd, .reg rs, .num len]
  | .nop              => []
  | .clrerr           => []
  | .wipe             => []

/-- The digits of the number forms of 30_encoding.md R68, each at the place of its value. -/
def digits : List Char := "0123456789ABCDEF".toList

/-- The digit of a value below 16. -/
def hexDigit (n : Nat) : Char := digits.getD n '0'

/-- The value of a digit below the base, 10 or 16, is its place among the digits; small letters stand for capitals
(log entry 15). -/
def digitValue (base : Nat) (c : Char) : Option Nat := (digits.take base).idxOf? c.toUpper

/-- An index, immediate or count of 0 to 255 from its digits, the first the most significant (30_encoding.md R68). -/
def readNumber (base : Nat) (cs : List Char) : Option AsmOperand := do
  let ds ← cs.mapM (digitValue base)
  let n := ds.foldl (fun high d => high * base + d) 0
  if ds ≠ [] ∧ n ≤ 255 then some (.num (BitVec.ofNat 8 n)) else none

/-- The text of an operand (30_encoding.md R68): `F0` to `F7`, or `0x` and two hexadecimal digits. -/
def printOperand : AsmOperand → List Char
  | .reg r => ['F', hexDigit r.val]
  | .num v => ['0', 'x', hexDigit (v.toNat / 16), hexDigit (v.toNat % 16)]

/-- An operand from its text (30_encoding.md R68): `F0` to `F7`, or a number 0 to 255, decimal or `0x` and
hexadecimal digits. -/
def readOperand (cs : List Char) : Option AsmOperand :=
  match cs with
  | 'F' :: ds =>
    match ds with
    | [d] => (digitValue 10 d).bind fun n => if h : n < 8 then some (.reg ⟨n, h⟩) else none
    | _   => none
  | '0' :: 'x' :: ds => readNumber 16 ds
  | _ => readNumber 10 cs

/-- Operands separated by a comma and a space (30_encoding.md R68). -/
def printOperands : List AsmOperand → List Char
  | [] => []
  | [o] => printOperand o
  | o :: p :: os => printOperand o ++ [',', ' '] ++ printOperands (p :: os)

/-- The assembly line of a command (30_encoding.md R68). -/
def printInstr (i : Instr) : List Char :=
  match asmOperandsOf i with
  | [] => (mnemonicOf i).toList
  | o :: os => (mnemonicOf i).toList ++ [' '] ++ printOperands (o :: os)

/-- Cut a text at every comma. -/
def splitAtCommas : List Char → List (List Char)
  | [] => [[]]
  | c :: cs =>
    match splitAtCommas cs with
    | [] => [[c]]
    | w :: ws => if c = ',' then [] :: w :: ws else (c :: w) :: ws

/-- An operand with the one space that stands before it. -/
def readSpacedOperand (cs : List Char) : Option AsmOperand :=
  match cs with
  | ' ' :: ds => readOperand ds
  | _ => none

/-- The operands after a mnemonic: none, or each after a space and cut at commas. -/
def readOperands (cs : List Char) : Option (List AsmOperand) :=
  if cs.isEmpty then some [] else (splitAtCommas cs).mapM readSpacedOperand

/-- The command of a mnemonic and its operands in assembly order (30_encoding.md R68). -/
def commandOf (mn : List Char) (ops : List AsmOperand) : Option Instr :=
  match ops with
  | [] =>
    if mn = "NOP".toList then some .nop
    else if mn = "CLRERR".toList then some .clrerr
    else if mn = "WIPE".toList then some .wipe
    else none
  | [.reg rd, .reg rs1, .reg rs2] =>
    if mn = "GFADD".toList then some (.gfadd rd rs1 rs2)
    else if mn = "GFMUL".toList then some (.gfmul rd rs1 rs2)
    else if mn = "GFDIV".toList then some (.gfdiv rd rs1 rs2)
    else none
  | [.reg rd, .reg rs1] => if mn = "GFINV".toList then some (.gfinv rd rs1) else none
  | [.reg rd, .num v] =>
    if mn = "LDI".toList then some (.ldi rd v)
    else if mn = "LDC".toList then some (.ldc rd v)
    else if mn = "LDX".toList then some (.ldx rd v)
    else if mn = "LDY".toList then some (.ldy rd v)
    else if mn = "INTERP0".toList then some (.interp0 rd v)
    else none
  | [.num v, .reg rs] =>
    if mn = "STC".toList then some (.stc v rs)
    else if mn = "STX".toList then some (.stx v rs)
    else if mn = "STY".toList then some (.sty v rs)
    else none
  | [.num v, .num w] =>
    if mn = "SETC".toList then some (.setc v w)
    else if mn = "SETX".toList then some (.setx v w)
    else if mn = "SETY".toList then some (.sety v w)
    else none
  | [.reg rd, .reg rs, .num v] =>
    if mn = "EVAL".toList then some (.eval rd rs v)
    else if mn = "INTERP".toList then some (.interp rd rs v)
    else none
  | _ => none

/-- The pseudo-instructions (30_encoding.md R69). -/
inductive Pseudo where
  | gfsub (rd rs1 rs2 : Reg)
  | gfsqr (rd rs : Reg)
  | clr (rd : Reg)
  | mov (rd rs : Reg)
  deriving DecidableEq, Repr

/-- The real commands of a pseudo-instruction (30_encoding.md R69); `MOV rd, rd` is not defined. -/
def Pseudo.expand : Pseudo → Option (List Instr)
  | .gfsub rd rs1 rs2 => some [.gfadd rd rs1 rs2]
  | .gfsqr rd rs      => some [.gfmul rd rs rs]
  | .clr rd           => some [.ldi rd 0x00#8]
  | .mov rd rs        => if rd = rs then none else some [.ldi rd 0x00#8, .gfadd rd rd rs]

/-- The pseudo-instruction of a mnemonic and its operands (30_encoding.md R69). -/
def pseudoOf (mn : List Char) (ops : List AsmOperand) : Option Pseudo :=
  match ops with
  | [.reg rd, .reg rs1, .reg rs2] => if mn = "GFSUB".toList then some (.gfsub rd rs1 rs2) else none
  | [.reg rd, .reg rs] =>
    if mn = "GFSQR".toList then some (.gfsqr rd rs)
    else if mn = "MOV".toList then some (.mov rd rs)
    else none
  | [.reg rd] => if mn = "CLR".toList then some (.clr rd) else none
  | _ => none

/-- A line without its comment, which runs from `;` to the end of the line (30_encoding.md R68), and without the
spaces at its two ends. -/
def stripLine (line : List Char) : List Char :=
  let code := (line.takeWhile (· != ';')).dropWhile (· == ' ')
  (code.reverse.dropWhile (· == ' ')).reverse

/-- The commands of one line (30_encoding.md R68, R69): none for an empty line, one for a command, one or two for a
pseudo-instruction; no answer for a line that is none of these. -/
def assembleLine (line : List Char) : Option (List Instr) :=
  let code := stripLine line
  let mn := code.takeWhile (· != ' ')
  if code.isEmpty then some []
  else (readOperands (code.dropWhile (· != ' '))).bind fun ops =>
    match commandOf mn ops with
    | some i => some [i]
    | none   => (pseudoOf mn ops).bind Pseudo.expand

/-- The words of a program, one line each (30_encoding.md R68). -/
def assembleProgram (lines : List (List Char)) : Option (List Word) :=
  (lines.mapM assembleLine).map fun is => is.flatten.map encode

end Sys2Proof.Machine
end

