-- ==== Sys2Proof/Machine/Flags.lean ====
section
/-!
DEFINITION. STATUS as the host reads it (10_state.md R23). The block has no condition codes: its only flag is
STATUS.ERR, set by faults alone (R25), through `State.raise` (Ops.lean).
-/
namespace Sys2Proof.Machine

/-- The code of a fault cause (60_exceptions.md R161). Codes 6 to 15 are reserved and never written. -/
def Cause.code : Cause → BitVec 4
  | .none       => 0#4
  | .illegalCmd => 1#4
  | .invZero    => 2#4
  | .badLen     => 3#4
  | .zeroX      => 4#4
  | .dupX       => 5#4

/-- STATUS as a 32-bit value (10_state.md R23): bit 0 ERR, bits 3:1 zero, bits 7:4 CAUSE, bits 15:8 EINFO, bits
31:16 zero. -/
def Status.word (t : Status) : Word :=
  (t.einfo.setWidth 32 <<< 8) ||| (t.cause.code.setWidth 32 <<< 4) ||| (BitVec.ofBool t.err).setWidth 32

end Sys2Proof.Machine
end

