-- ==== Sys2Proof/Machine/Ports.lean ====
section
/-!
DEFINITION. The ports of the block, one rising edge of `clk` at a time (20_memory.md R40, R41, R44;
70_reset_and_hazards.md R190, R191, R199). The block behind them is `State`; the only thing this layer adds is the
command in flight, which no architectural state holds (10_state.md R20; log entry 2). The word comes in on
`cmd_word`, so `State.host` is neither read nor changed here.
-/
namespace Sys2Proof.Machine

/-- The read port (20_memory.md R44): selectors 0 to 7 a register with zero bits above it, 8 STATUS, 9 to 15 zero. -/
def State.readPort (s : State) (sel : BitVec 4) : Word :=
  if h : sel.toNat < 8 then (s.reg ⟨sel.toNat, h⟩).setWidth 32
  else if sel = 8#4 then s.status.word
  else 0x00000000#32

/-- The input ports in one cycle (20_memory.md R40); `clk` is the cycle itself. -/
structure PortsIn where
  rst      : Bool
  cmdValid : Bool
  cmdWord  : Word
  rdSel    : BitVec 4
  deriving DecidableEq, Repr

/-- The output ports in one cycle (20_memory.md R40). -/
structure PortsOut where
  cmdReady : Bool
  rdData   : Word
  deriving DecidableEq, Repr

/-- A command accepted and not yet complete: its word, and in how many rising edges its effects are complete. -/
structure InFlight where
  word : Word
  left : Nat
  deriving DecidableEq, Repr

/-- The block between two rising edges. -/
structure Block where
  core     : State
  inFlight : Option InFlight
  deriving DecidableEq, Repr

/-- The block after reset: idle (70_reset_and_hazards.md R190). -/
def Block.reset : Block := { core := State.reset, inFlight := none }

/-- `cmd_ready` (20_memory.md R41; 70_reset_and_hazards.md R190): 0 while a command executes and while `rst = 1`. -/
def Block.cmdReady (b : Block) (p : PortsIn) : Bool := !p.rst && b.inFlight.isNone

/-- What the output ports show in a cycle. While a command executes `core` is the state from before it
(20_memory.md R44). -/
def Block.outputs (b : Block) (p : PortsIn) : PortsOut :=
  { cmdReady := b.cmdReady p, rdData := b.core.readPort p.rdSel }

/-- The host input that takes its effect at this rising edge, if one does: a reset, or the command whose last
cycle this is (20_memory.md R41; 70_reset_and_hazards.md R190, R191). -/
def Block.completes (b : Block) (p : PortsIn) : Option HostInput :=
  if p.rst then some .reset
  else match b.inFlight with
    | none => none
    | some c => if c.left ≤ 1 then some (.command c.word) else none

/-- The command in flight after this rising edge: none after a reset or a completion; a word presented while the
block is ready is accepted and takes `cyclesOfWord` cycles; a word presented meanwhile is not accepted and has no
effect (20_memory.md R41). -/
def Block.nextInFlight (b : Block) (p : PortsIn) : Option InFlight :=
  if p.rst then none
  else match b.inFlight with
    | none => if p.cmdValid then some { word := p.cmdWord, left := cyclesOfWord p.cmdWord } else none
    | some c => if c.left ≤ 1 then none else some { c with left := c.left - 1 }

/-- One rising edge of `clk`. -/
def Block.clock (b : Block) (p : PortsIn) : Host.Outcome Block Fault Refusal :=
  match b.completes p with
  | none => .next { b with inFlight := b.nextInFlight p }
  | some inp =>
    match hostStep inp b.core with
    | .next t    => .next { core := t, inFlight := b.nextInFlight p }
    | .fault r   => .fault r
    | .refused r => .refused r

/-- A number of rising edges, with the ports driven as the list says. -/
def Block.clocks (b : Block) : List PortsIn → Host.Outcome Block Fault Refusal
  | [] => .next b
  | p :: ps =>
    match b.clock p with
    | .next b'   => Block.clocks b' ps
    | .fault r   => .fault r
    | .refused r => .refused r

/-- The host inputs that take their effect during a number of rising edges, in order. -/
def Block.completed (b : Block) : List PortsIn → List HostInput
  | [] => []
  | p :: ps =>
    match b.clock p with
    | .next b' => (b.completes p).toList ++ Block.completed b' ps
    | _        => (b.completes p).toList

end Sys2Proof.Machine
end

