-- ==== Sys2Proof/Safety.lean ====
section
/-!
DEFINITION. The terms in which claims about the block are made: the invariant of its states, what a command may
change, what it reads, when it faults, and words written byte by byte. No meaning depends on this file.
-/
namespace Sys2Proof.Machine

/-- The status values a fault can leave (60_exceptions.md R161), and the clear one: EINFO of ILLEGAL_CMD is any
opcode byte, of INV_ZERO a register number, of BAD_LEN zero, of ZERO_X an index below a count, of DUP_X such an
index above 0; with ERR = 0 both CAUSE and EINFO are zero (10_state.md R23). -/
def Status.legal (t : Status) : Bool :=
  match t.cause with
  | .none       => !t.err && t.einfo == 0x00#8
  | .illegalCmd => t.err
  | .invZero    => t.err && decide (t.einfo.toNat < 8)
  | .badLen     => t.err && t.einfo == 0x00#8
  | .zeroX      => t.err && decide (t.einfo.toNat < Config.maxLen)
  | .dupX       => t.err && decide (0 < t.einfo.toNat) && decide (t.einfo.toNat < Config.maxLen)

/-- The invariant of the block: the three memories are in canonical form, with no element outside their 256
indices (10_state.md R22), and STATUS is legal (R23). -/
def State.Inv (s : State) : Prop :=
  Memory.wf s.cv = true ∧ Memory.wf s.xv = true ∧ Memory.wf s.yv = true ∧ s.status.legal = true

/-- Nothing but register `rd` differs: the other registers, every vector element, STATUS and the host's inputs are
as before. -/
def OnlyRegChanges (rd : Reg) (s t : State) : Prop :=
  (∀ r, r ≠ rd → t.reg r = s.reg r) ∧ (∀ m i, t.elem m i = s.elem m i) ∧ t.status = s.status ∧ t.host = s.host

/-- Nothing but element `i` of memory `m` differs: every register, every other element of every memory, STATUS and
the host's inputs are as before. -/
def OnlyElemChanges (m : VecMem) (i : Nat) (s t : State) : Prop :=
  (∀ r, t.reg r = s.reg r) ∧ (∀ m' j, m' ≠ m ∨ j ≠ i → t.elem m' j = s.elem m' j) ∧ t.status = s.status ∧
    t.host = s.host

/-- Nothing but STATUS differs: every register, every element and the host's inputs are as before. -/
def OnlyStatusChanges (s t : State) : Prop :=
  (∀ r, t.reg r = s.reg r) ∧ (∀ m i, t.elem m i = s.elem m i) ∧ t.host = s.host

/-- A fault with this cause and EINFO has been raised and nothing else has happened (60_exceptions.md R163). -/
def Raised (c : Cause) (info : BitVec 8) (s t : State) : Prop :=
  t.status = { err := true, cause := c, einfo := info } ∧ OnlyStatusChanges s t

/-- Every register, element and status field is zero (10_state.md R28). -/
def AllZero (s : State) : Prop :=
  (∀ r, s.reg r = 0x00#8) ∧ (∀ m i, s.elem m i = 0x00#8) ∧
    s.status = { err := false, cause := .none, einfo := 0x00#8 }

/-- A word written byte by byte, the opcode byte first (30_encoding.md R60). -/
def wordOfBytes (op d a b : BitVec 8) : Word := op ++ d ++ a ++ b

/-- A register number as the byte of its field: five zero bits and its three bits (30_encoding.md R62). -/
def regByte (r : Reg) : BitVec 8 := 0#5 ++ BitVec.ofNat 3 r.val

/-- The command is dropped under the error latch: no state changes (60_exceptions.md R164). -/
def DroppedWhenLatched (i : Instr) : Prop := ∀ s : State, s.status.err = true → exec i s = .next s

/-- The word raises ILLEGAL_CMD with its opcode byte as EINFO when it is accepted with the latch clear
(30_encoding.md R65). -/
def RaisesIllegal (w : Word) : Prop :=
  ∀ s : State, s.status.err = false → ∃ t, acceptWord w s = .next t ∧ Raised .illegalCmd (w.extractLsb' 24 8) s t

/-- The command writes its destination register and nothing else, and the value is `v` (latch clear). -/
def WritesReg (i : Instr) (s : State) (rd : Reg) (v : Elem) : Prop :=
  ∃ t, exec i s = .next t ∧ t.reg rd = v ∧ OnlyRegChanges rd s t

/-- The command writes one element and nothing else, and the value is `v` (latch clear). -/
def WritesElem (i : Instr) (s : State) (m : VecMem) (idx : Nat) (v : Elem) : Prop :=
  ∃ t, exec i s = .next t ∧ t.elem m idx = v ∧ OnlyElemChanges m idx s t

/-- The command raises the fault and does nothing else (latch clear). -/
def RaisesFault (i : Instr) (s : State) (c : Cause) (info : BitVec 8) : Prop :=
  ∃ t, exec i s = .next t ∧ Raised c info s t

/-- `XV[i]` is the first zero among elements 0 to `len - 1` (43_lagrange_interpolation.md R131 check 3). -/
def FirstZeroX (s : State) (len i : Nat) : Prop :=
  i < len ∧ s.elem .xv i = 0x00#8 ∧ ∀ k, k < i → s.elem .xv k ≠ 0x00#8

/-- `XV[j]` repeats an element before it. -/
def RepeatsX (s : State) (j : Nat) : Prop := ∃ i, i < j ∧ s.elem .xv i = s.elem .xv j

/-- No element of `XV[0..len-1]` is zero. -/
def NonZeroX (s : State) (len : Nat) : Prop := ∀ i, i < len → s.elem .xv i ≠ 0x00#8

/-- `XV[j]` is the first of elements 0 to `len - 1` that repeats an earlier one, and none of them is zero (R131
check 4; 60_exceptions.md R162). -/
def FirstDupX (s : State) (len j : Nat) : Prop :=
  NonZeroX s len ∧ j < len ∧ RepeatsX s j ∧ ∀ k, k < j → ¬ RepeatsX s k

/-- The x-coordinates of `XV[0..len-1]` are non-zero and pairwise distinct (R131). -/
def DistinctX (s : State) (len : Nat) : Prop := NonZeroX s len ∧ ∀ j, j < len → ¬ RepeatsX s j

/-- What an interpolation of `len` points at `xstar` into `rd` does when the latch is clear
(43_lagrange_interpolation.md R131 to R133): BAD_LEN, ZERO_X or DUP_X with the EINFO of the first offending
element, or the value of `lagrange` in `rd`. -/
def InterpolatesTo (i : Instr) (s : State) (rd : Reg) (xstar : Elem) (len : Count) : Prop :=
  (len = 0x00#8 → RaisesFault i s .badLen 0x00#8) ∧
  (∀ k, FirstZeroX s len.toNat k → RaisesFault i s .zeroX (BitVec.ofNat 8 k)) ∧
  (∀ k, FirstDupX s len.toNat k → RaisesFault i s .dupX (BitVec.ofNat 8 k)) ∧
  (len ≠ 0x00#8 → DistinctX s len.toNat →
    ∃ v, lagrange ((List.range len.toNat).map (s.elem .xv)) ((List.range len.toNat).map (s.elem .yv)) xstar = some v ∧
      WritesReg i s rd v)

/-- The register a command writes when it succeeds. -/
def destReg : Instr → Option Reg
  | .gfadd rd _ _  => some rd
  | .gfmul rd _ _  => some rd
  | .gfinv rd _    => some rd
  | .gfdiv rd _ _  => some rd
  | .ldi rd _      => some rd
  | .ldc rd _      => some rd
  | .ldx rd _      => some rd
  | .ldy rd _      => some rd
  | .stc _ _       => none
  | .stx _ _       => none
  | .sty _ _       => none
  | .setc _ _      => none
  | .setx _ _      => none
  | .sety _ _      => none
  | .eval rd _ _   => some rd
  | .interp0 rd _  => some rd
  | .interp rd _ _ => some rd
  | .nop           => none
  | .clrerr        => none
  | .wipe          => none

/-- The element a store or a set command writes (10_state.md R22). -/
def destElem : Instr → Option (VecMem × Nat)
  | .gfadd _ _ _  => none
  | .gfmul _ _ _  => none
  | .gfinv _ _    => none
  | .gfdiv _ _ _  => none
  | .ldi _ _      => none
  | .ldc _ _      => none
  | .ldx _ _      => none
  | .ldy _ _      => none
  | .stc idx _    => some (.cv, idx.toNat)
  | .stx idx _    => some (.xv, idx.toNat)
  | .sty idx _    => some (.yv, idx.toNat)
  | .setc idx _   => some (.cv, idx.toNat)
  | .setx idx _   => some (.xv, idx.toNat)
  | .sety idx _   => some (.yv, idx.toNat)
  | .eval _ _ _   => none
  | .interp0 _ _  => none
  | .interp _ _ _ => none
  | .nop          => none
  | .clrerr       => none
  | .wipe         => none

/-- The registers a command's rule names as sources. -/
def sourceRegs : Instr → List Reg
  | .gfadd _ rs1 rs2 => [rs1, rs2]
  | .gfmul _ rs1 rs2 => [rs1, rs2]
  | .gfinv _ rs1     => [rs1]
  | .gfdiv _ rs1 rs2 => [rs1, rs2]
  | .ldi _ _         => []
  | .ldc _ _         => []
  | .ldx _ _         => []
  | .ldy _ _         => []
  | .stc _ rs        => [rs]
  | .stx _ rs        => [rs]
  | .sty _ rs        => [rs]
  | .setc _ _        => []
  | .setx _ _        => []
  | .sety _ _        => []
  | .eval _ rs _     => [rs]
  | .interp0 _ _     => []
  | .interp _ rs _   => [rs]
  | .nop             => []
  | .clrerr          => []
  | .wipe            => []

/-- The vector elements a command's rule names as sources: one element for a load, elements 0 to `len - 1` for a
vector command, and no other (10_state.md R22). -/
def readsElem (i : Instr) (m : VecMem) (k : Nat) : Prop :=
  match i with
  | .gfadd _ _ _     => False
  | .gfmul _ _ _     => False
  | .gfinv _ _       => False
  | .gfdiv _ _ _     => False
  | .ldi _ _         => False
  | .ldc _ idx       => m = .cv ∧ k = idx.toNat
  | .ldx _ idx       => m = .xv ∧ k = idx.toNat
  | .ldy _ idx       => m = .yv ∧ k = idx.toNat
  | .stc _ _         => False
  | .stx _ _         => False
  | .sty _ _         => False
  | .setc _ _        => False
  | .setx _ _        => False
  | .sety _ _        => False
  | .eval _ _ len    => m = .cv ∧ k < len.toNat
  | .interp0 _ len   => m ≠ .cv ∧ k < len.toNat
  | .interp _ _ len  => m ≠ .cv ∧ k < len.toNat
  | .nop             => False
  | .clrerr          => False
  | .wipe            => False

/-- Two states hold the same values in every operand of the command. -/
def SameOperands (i : Instr) (s s' : State) : Prop :=
  (∀ r, r ∈ sourceRegs i → s.reg r = s'.reg r) ∧ (∀ m k, readsElem i m k → s.elem m k = s'.elem m k)

/-- The word is INTERP0 or INTERP with this count. -/
def interpolatesWith (w : Word) (len : Count) : Prop :=
  (∃ rd, decode w = .ok (.interp0 rd len)) ∨ (∃ rd rs, decode w = .ok (.interp rd rs len))

/-- The table of fault causes (60_exceptions.md R161) with the priority of R162: when accepting the word with the
latch clear raises the cause, and the EINFO it records. -/
def FaultCondition (w : Word) (s : State) (c : Cause) (info : BitVec 8) : Prop :=
  match c with
  | .none       => False
  | .illegalCmd => (∃ e, decode w = .error e) ∧ info = w.extractLsb' 24 8
  | .invZero    => (∃ rd rs1, decode w = .ok (.gfinv rd rs1) ∧ s.reg rs1 = 0x00#8 ∧ info = regByte rs1) ∨
      (∃ rd rs1 rs2, decode w = .ok (.gfdiv rd rs1 rs2) ∧ s.reg rs2 = 0x00#8 ∧ info = regByte rs2)
  | .badLen     => ((∃ rd rs, decode w = .ok (.eval rd rs 0x00#8)) ∨ interpolatesWith w 0x00#8) ∧ info = 0x00#8
  | .zeroX      => ∃ len, interpolatesWith w len ∧ FirstZeroX s len.toNat info.toNat
  | .dupX       => ∃ len, interpolatesWith w len ∧ FirstDupX s len.toNat info.toNat

/-- The state with the host about to give these inputs, and no others. -/
def State.withInputs (s : State) (inputs : List HostInput) : State := { s with host := inputs }

/-- Run commands one after another, stopping at the first fault or refusal. -/
def execAll : List Instr → State → Outcome
  | [], s => .next s
  | i :: is, s =>
    match exec i s with
    | .next t    => execAll is t
    | .fault r   => .fault r
    | .refused r => .refused r

end Sys2Proof.Machine
end

