-- ==== Sys2Proof/Certificates/Slice0/Obligations.lean ====
section
/-!
DEFINITION. The statements for the provers, each a proposition about the model. The docstring of each names the
rule of spec/ it formalises or the sections it is derived from.
-/
open Sys2Proof Sys2Proof.Machine

/-- 30_encoding.md R64, R68: decoding an encoded command gives it back, with every operand. -/
def Obligations.DecodeOfEncodeIsTheCommand : Prop := ∀ i : Instr, decode (encode i) = .ok i

/-- 30_encoding.md R61, R64: a word that decodes is the encoding of what it decodes to, so no bit of it is ignored. -/
def Obligations.EncodeOfDecodeIsTheWord : Prop := ∀ (w : Word) (i : Instr), decode w = .ok i → encode i = w

/-- 30_encoding.md R65: the three ways a word is illegal, each with a word of the rule or of its kind, and what an
illegal word does. -/
def Obligations.IllegalInExactlyThreeWays : Prop :=
  (∀ w : Word, (∃ e, decode w = .error e) ↔
    (formatOf (w.extractLsb' 24 8) = none ∨
      ∃ f, formatOf (w.extractLsb' 24 8) = some f ∧
        ((∃ r ∈ f.regFields (fieldsOfWord w), 7 < r.toNat) ∨ (∃ z ∈ f.zeroFields (fieldsOfWord w), z ≠ 0x00#8)))) ∧
  (∀ w : Word, (∃ e, decode w = .error e) →
    RaisesIllegal w ∧ ∀ s : State, s.status.err = true → acceptWord w s = .next s) ∧
  decode 0x00000000#32 = .error .unknownOpcode ∧ decode 0xFFFFFFFF#32 = .error .unknownOpcode

/-- 30_encoding.md R61: the mask of a command's format decides whether a word is that command, and the fields of
the command are the fields of the word. -/
def Obligations.MaskAndMatchDecide : Prop :=
  ∀ (op : BitVec 8) (f : Format), formatOf op = some f → ∀ w : Word,
    (w &&& f.mask = op.setWidth 32 <<< 24 ↔ ∃ i, decode w = .ok i ∧ i.opcode = op) ∧
    (∀ i, decode w = .ok i → fieldsOfInstr i = fieldsOfWord w)

/-- Sanity, from 95_test_vectors.md section 4 and section 8: words written out from the encoding tables decode to
the commands they stand for. -/
def Obligations.SampleWordsDecode : Prop :=
  decode 0x01030001#32 = .ok (.gfadd 3 0 1) ∧ decode 0x03070700#32 = .ok (.gfinv 7 7) ∧
  decode 0x1007FF00#32 = .ok (.ldi 7 0xFF#8) ∧ decode 0x13030100#32 = .ok (.ldy 3 0x01#8) ∧
  decode 0x1400FF07#32 = .ok (.stc 0xFF#8 7) ∧ decode 0x18000032#32 = .ok (.setx 0x00#8 0x32#8) ∧
  decode 0x200707FF#32 = .ok (.eval 7 7 0xFF#8) ∧ decode 0x300700FF#32 = .ok (.interp0 7 0xFF#8) ∧
  decode 0x31040303#32 = .ok (.interp 4 3 0x03#8) ∧ decode 0x42000000#32 = .ok .wipe

/-- 40_field_arithmetic.md R81: an element `c` is `gf_mul(a, b)` exactly when its polynomial over GF(2) is
congruent to the product of those of `a` and `b` modulo x^8 + x^4 + x^3 + x + 1, bit `i` being the coefficient of
x^i (00_scope.md R7). -/
def Obligations.MulIsThePolynomialProductModulo : Prop :=
  let poly : Elem → Polynomial (ZMod 2) := fun e =>
    ∑ i ∈ Finset.range 8, if e.getLsbD i then Polynomial.X ^ i else 0
  let red : Polynomial (ZMod 2) :=
    Polynomial.X ^ 8 + Polynomial.X ^ 4 + Polynomial.X ^ 3 + Polynomial.X + 1
  ∀ a b c : Elem, c = gfMul a b ↔ red ∣ poly a * poly b - poly c

/-- 40_field_arithmetic.md R82: the bit-serial multiplier computes R81 on all 65536 input pairs, and its doubling
step is multiplication by the element 0x02. -/
def Obligations.SerialMultiplierAgrees : Prop :=
  (∀ a b : Elem, gfMulSerial a b = gfMul a b) ∧ (∀ a : Elem, xtime a = gfMul a 0x02#8)

/-- 40_field_arithmetic.md R83: the laws of the field and their consequences. -/
def Obligations.FieldLawsHold : Prop :=
  (∀ a b c : Elem, gfAdd (gfAdd a b) c = gfAdd a (gfAdd b c) ∧ gfAdd a b = gfAdd b a) ∧
  (∀ a b c : Elem, gfMul (gfMul a b) c = gfMul a (gfMul b c) ∧ gfMul a b = gfMul b a ∧
    gfMul a (gfAdd b c) = gfAdd (gfMul a b) (gfMul a c)) ∧
  (∀ a : Elem, gfMul a 0x01#8 = a ∧ gfMul a 0x00#8 = 0x00#8) ∧
  (∀ a : Elem, a ≠ 0x00#8 → (∃ r, gfInv a = some r ∧ gfMul a r = 0x01#8) ∧ gfPow a Config.groupOrder = 0x01#8) ∧
  (∀ a b : Elem, gfMul a b = 0x00#8 ↔ a = 0x00#8 ∨ b = 0x00#8)

/-- 40_field_arithmetic.md R84: `gf_inv(a)` is the unique inverse of a non-zero `a`, equal to `a^254`, and its own
inverse function; it has no value at zero. -/
def Obligations.InverseIsUnique : Prop :=
  gfInv 0x00#8 = none ∧ gfInv 0x01#8 = some 0x01#8 ∧
  ∀ a : Elem, a ≠ 0x00#8 → ∃ r, gfInv a = some r ∧ r = gfPow a Config.invExp ∧
    (∀ b, gfMul a b = 0x01#8 ↔ b = r) ∧ gfInv r = some a

/-- 40_field_arithmetic.md R85: after the k-th of the six double steps the chain holds `a^(2^(k+1) - 1)`, and its
result is `a^254`. -/
def Obligations.InverterChainComputesPowers : Prop :=
  ∀ a : Elem, (∀ k, k ≤ 6 →
      (List.range k).foldl (fun r _ => gfMul (gfMul r r) a) a = gfPow a (2 ^ (k + 1) - 1)) ∧
    inverterChain a = gfPow a Config.invExp

/-- 40_field_arithmetic.md R86: division and its laws; it has no value for a zero divisor. -/
def Obligations.DivisionLaws : Prop :=
  (∀ a : Elem, gfDiv a 0x00#8 = none ∧ gfDiv a 0x01#8 = some a) ∧
  (∀ a b : Elem, b ≠ 0x00#8 → ∃ q r, gfDiv a b = some q ∧ gfInv b = some r ∧ q = gfMul a r ∧ gfMul q b = a) ∧
  (∀ b : Elem, b ≠ 0x00#8 → gfDiv 0x00#8 b = some 0x00#8 ∧ gfDiv b b = some 0x01#8)

/-- 40_field_arithmetic.md R88, whole: encoding, effect, frame, latch and illegal register fields of GFADD. -/
def Obligations.GfaddFollowsItsRule : Prop :=
  (∀ rd rs1 rs2 : Reg,
    decode (wordOfBytes 0x01#8 (regByte rd) (regByte rs1) (regByte rs2)) = .ok (.gfadd rd rs1 rs2) ∧
    (∀ s : State, s.status.err = false → WritesReg (.gfadd rd rs1 rs2) s rd (s.reg rs1 ^^^ s.reg rs2)) ∧
    DroppedWhenLatched (.gfadd rd rs1 rs2)) ∧
  (∀ d a b : BitVec 8, 7 < d.toNat ∨ 7 < a.toNat ∨ 7 < b.toNat → RaisesIllegal (wordOfBytes 0x01#8 d a b))

/-- 40_field_arithmetic.md R89: encoding, effect, frame, latch and illegal register fields of GFMUL; a zero
operand gives zero, an operand 0x01 copies the other, the order of the operands does not matter, and the time taken
is LAT of the opcode alone. The time clause rests on the model's choice of log entry 6 (0 passed as `len`). -/
def Obligations.GfmulFollowsItsRule : Prop :=
  (∀ rd rs1 rs2 : Reg,
    decode (wordOfBytes 0x02#8 (regByte rd) (regByte rs1) (regByte rs2)) = .ok (.gfmul rd rs1 rs2) ∧
    (∀ s : State, s.status.err = false → WritesReg (.gfmul rd rs1 rs2) s rd (gfMul (s.reg rs1) (s.reg rs2)) ∧
      exec (.gfmul rd rs1 rs2) s = exec (.gfmul rd rs2 rs1) s ∧
      (s.reg rs1 = 0x00#8 → WritesReg (.gfmul rd rs1 rs2) s rd 0x00#8) ∧
      (s.reg rs1 = 0x01#8 → WritesReg (.gfmul rd rs1 rs2) s rd (s.reg rs2))) ∧
    cyclesOfWord (wordOfBytes 0x02#8 (regByte rd) (regByte rs1) (regByte rs2)) = Config.latency 0x02#8 0x00#8 ∧
    DroppedWhenLatched (.gfmul rd rs1 rs2)) ∧
  (∀ d a b : BitVec 8, 7 < d.toNat ∨ 7 < a.toNat ∨ 7 < b.toNat → RaisesIllegal (wordOfBytes 0x02#8 d a b))

/-- 40_field_arithmetic.md R90, whole: GFINV writes the inverse of a non-zero source and raises INV_ZERO with the
register's number for a zero one. -/
def Obligations.GfinvFollowsItsRule : Prop :=
  (∀ rd rs1 : Reg,
    decode (wordOfBytes 0x03#8 (regByte rd) (regByte rs1) 0x00#8) = .ok (.gfinv rd rs1) ∧
    (∀ s : State, s.status.err = false → s.reg rs1 ≠ 0x00#8 →
      ∃ v, gfInv (s.reg rs1) = some v ∧ gfMul (s.reg rs1) v = 0x01#8 ∧ WritesReg (.gfinv rd rs1) s rd v) ∧
    (∀ s : State, s.status.err = false → s.reg rs1 = 0x00#8 →
      RaisesFault (.gfinv rd rs1) s .invZero (regByte rs1)) ∧
    DroppedWhenLatched (.gfinv rd rs1)) ∧
  (∀ d a b : BitVec 8, 7 < d.toNat ∨ 7 < a.toNat ∨ b ≠ 0x00#8 → RaisesIllegal (wordOfBytes 0x03#8 d a b))

/-- 40_field_arithmetic.md R91, whole: GFDIV writes the quotient by a non-zero divisor (0x01 for equal operands, 0x00
for a zero dividend) and raises INV_ZERO with the divisor register's number for a zero one, whatever the dividend. -/
def Obligations.GfdivFollowsItsRule : Prop :=
  (∀ rd rs1 rs2 : Reg,
    decode (wordOfBytes 0x04#8 (regByte rd) (regByte rs1) (regByte rs2)) = .ok (.gfdiv rd rs1 rs2) ∧
    (∀ s : State, s.status.err = false → s.reg rs2 ≠ 0x00#8 →
      ∃ r, gfInv (s.reg rs2) = some r ∧ gfMul (gfMul (s.reg rs1) r) (s.reg rs2) = s.reg rs1 ∧
        WritesReg (.gfdiv rd rs1 rs2) s rd (gfMul (s.reg rs1) r) ∧
        (s.reg rs1 = s.reg rs2 → gfMul (s.reg rs1) r = 0x01#8) ∧
        (s.reg rs1 = 0x00#8 → gfMul (s.reg rs1) r = 0x00#8)) ∧
    (∀ s : State, s.status.err = false → s.reg rs2 = 0x00#8 →
      RaisesFault (.gfdiv rd rs1 rs2) s .invZero (regByte rs2)) ∧
    DroppedWhenLatched (.gfdiv rd rs1 rs2)) ∧
  (∀ d a b : BitVec 8, 7 < d.toNat ∨ 7 < a.toNat ∨ 7 < b.toNat → RaisesIllegal (wordOfBytes 0x04#8 d a b))

/-- 41_data_movement.md R100, whole: LDI writes its immediate. -/
def Obligations.LdiFollowsItsRule : Prop :=
  (∀ (rd : Reg) (imm8 : Elem),
    decode (wordOfBytes 0x10#8 (regByte rd) imm8 0x00#8) = .ok (.ldi rd imm8) ∧
    (∀ s : State, s.status.err = false → WritesReg (.ldi rd imm8) s rd imm8) ∧
    DroppedWhenLatched (.ldi rd imm8)) ∧
  (∀ d a b : BitVec 8, 7 < d.toNat ∨ b ≠ 0x00#8 → RaisesIllegal (wordOfBytes 0x10#8 d a b))

/-- 41_data_movement.md R101, R102, R103, whole: LDC, LDX and LDY write one element to a register and leave the
memories as they were. -/
def Obligations.LoadsFollowTheirRules : Prop :=
  (∀ (rd : Reg) (idx : Index),
    decode (wordOfBytes 0x11#8 (regByte rd) idx 0x00#8) = .ok (.ldc rd idx) ∧
    decode (wordOfBytes 0x12#8 (regByte rd) idx 0x00#8) = .ok (.ldx rd idx) ∧
    decode (wordOfBytes 0x13#8 (regByte rd) idx 0x00#8) = .ok (.ldy rd idx) ∧
    (∀ s : State, s.status.err = false →
      WritesReg (.ldc rd idx) s rd (s.elem .cv idx.toNat) ∧ WritesReg (.ldx rd idx) s rd (s.elem .xv idx.toNat) ∧
      WritesReg (.ldy rd idx) s rd (s.elem .yv idx.toNat)) ∧
    DroppedWhenLatched (.ldc rd idx) ∧ DroppedWhenLatched (.ldx rd idx) ∧ DroppedWhenLatched (.ldy rd idx)) ∧
  (∀ d a b : BitVec 8, 7 < d.toNat ∨ b ≠ 0x00#8 → RaisesIllegal (wordOfBytes 0x11#8 d a b) ∧
    RaisesIllegal (wordOfBytes 0x12#8 d a b) ∧ RaisesIllegal (wordOfBytes 0x13#8 d a b))

/-- 41_data_movement.md R104, R105, R106, whole: STC, STX and STY store a register to one element, whatever its
value, and every other element of every memory reads as before. -/
def Obligations.StoresFollowTheirRules : Prop :=
  (∀ (idx : Index) (rs : Reg),
    decode (wordOfBytes 0x14#8 0x00#8 idx (regByte rs)) = .ok (.stc idx rs) ∧
    decode (wordOfBytes 0x15#8 0x00#8 idx (regByte rs)) = .ok (.stx idx rs) ∧
    decode (wordOfBytes 0x16#8 0x00#8 idx (regByte rs)) = .ok (.sty idx rs) ∧
    (∀ s : State, s.status.err = false →
      WritesElem (.stc idx rs) s .cv idx.toNat (s.reg rs) ∧ WritesElem (.stx idx rs) s .xv idx.toNat (s.reg rs) ∧
      WritesElem (.sty idx rs) s .yv idx.toNat (s.reg rs)) ∧
    DroppedWhenLatched (.stc idx rs) ∧ DroppedWhenLatched (.stx idx rs) ∧ DroppedWhenLatched (.sty idx rs)) ∧
  (∀ d a b : BitVec 8, d ≠ 0x00#8 ∨ 7 < b.toNat → RaisesIllegal (wordOfBytes 0x14#8 d a b) ∧
    RaisesIllegal (wordOfBytes 0x15#8 d a b) ∧ RaisesIllegal (wordOfBytes 0x16#8 d a b))

/-- 41_data_movement.md R107, R108, R109, whole: SETC, SETX and SETY write an immediate to one element, zero
included, and every other element of every memory reads as before. -/
def Obligations.SetsFollowTheirRules : Prop :=
  (∀ (idx : Index) (imm8 : Elem),
    decode (wordOfBytes 0x17#8 0x00#8 idx imm8) = .ok (.setc idx imm8) ∧
    decode (wordOfBytes 0x18#8 0x00#8 idx imm8) = .ok (.setx idx imm8) ∧
    decode (wordOfBytes 0x19#8 0x00#8 idx imm8) = .ok (.sety idx imm8) ∧
    (∀ s : State, s.status.err = false →
      WritesElem (.setc idx imm8) s .cv idx.toNat imm8 ∧ WritesElem (.setx idx imm8) s .xv idx.toNat imm8 ∧
      WritesElem (.sety idx imm8) s .yv idx.toNat imm8) ∧
    DroppedWhenLatched (.setc idx imm8) ∧ DroppedWhenLatched (.setx idx imm8) ∧
    DroppedWhenLatched (.sety idx imm8)) ∧
  (∀ d a b : BitVec 8, d ≠ 0x00#8 → RaisesIllegal (wordOfBytes 0x17#8 d a b) ∧
    RaisesIllegal (wordOfBytes 0x18#8 d a b) ∧ RaisesIllegal (wordOfBytes 0x19#8 d a b))

/-- 42_polynomial_evaluator.md R120: `poly_eval` of a non-empty sequence is the sum of the terms `c_i · x^i`, the
loop that starts from zero gives the same, and one coefficient is the value at every point. -/
def Obligations.PolyEvalIsTheSumOfTerms : Prop :=
  (∀ (c : List Elem) (x : Elem), c ≠ [] →
    polyEval c x = some ((List.range c.length).foldl
      (fun acc i => gfAdd acc (gfMul (c.getD i 0x00#8) (gfPow x i))) 0x00#8) ∧
    polyEval c x = some (c.foldr (fun ci y => gfAdd (gfMul y x) ci) 0x00#8)) ∧
  (∀ c0 x : Elem, polyEval [c0] x = some c0)

/-- 42_polynomial_evaluator.md R121, whole: EVAL writes `poly_eval(CV[0..len-1], F[rs])`, raises BAD_LEN for a zero
count, and its value at the points 0x00 and 0x01 is `CV[0]` and the exclusive or of the coefficients. -/
def Obligations.EvalFollowsItsRule : Prop :=
  (∀ (rd rs : Reg) (len : Count),
    decode (wordOfBytes 0x20#8 (regByte rd) (regByte rs) len) = .ok (.eval rd rs len) ∧
    DroppedWhenLatched (.eval rd rs len) ∧
    ∀ s : State, s.status.err = false →
      (len = 0x00#8 → RaisesFault (.eval rd rs len) s .badLen 0x00#8) ∧
      (len ≠ 0x00#8 →
        ∃ v, polyEval ((List.range len.toNat).map (s.elem .cv)) (s.reg rs) = some v ∧
          WritesReg (.eval rd rs len) s rd v ∧
          (len = 0x01#8 ∨ s.reg rs = 0x00#8 → v = s.elem .cv 0) ∧
          (s.reg rs = 0x01#8 → v = (List.range len.toNat).foldl (fun acc i => acc ^^^ s.elem .cv i) 0x00#8))) ∧
  (∀ d a b : BitVec 8, 7 < d.toNat ∨ 7 < a.toNat → RaisesIllegal (wordOfBytes 0x20#8 d a b))

/-- 43_lagrange_interpolation.md R130: for pairwise distinct x-coordinates there is exactly one polynomial of `n`
coefficients through the `n` points, and `lagrange` is its value at every point. -/
def Obligations.LagrangeIsTheUniquePolynomial : Prop :=
  ∀ xs ys : List Elem, xs ≠ [] → ys.length = xs.length → xs.Nodup →
    ∃ c : List Elem, c.length = xs.length ∧
      (∀ i, i < xs.length → polyEval c (xs.getD i 0x00#8) = some (ys.getD i 0x00#8)) ∧
      (∀ xstar, lagrange xs ys xstar = polyEval c xstar) ∧
      (∀ c' : List Elem, c'.length = xs.length →
        (∀ i, i < xs.length → polyEval c' (xs.getD i 0x00#8) = some (ys.getD i 0x00#8)) → c' = c)

/-- 43_lagrange_interpolation.md R130: permuting the points leaves the result unchanged. -/
def Obligations.LagrangeIgnoresTheOrderOfPoints : Prop :=
  ∀ (ps qs : List (Elem × Elem)) (xstar : Elem), ps.Perm qs →
    lagrange (ps.map Prod.fst) (ps.map Prod.snd) xstar = lagrange (qs.map Prod.fst) (qs.map Prod.snd) xstar

/-- 43_lagrange_interpolation.md R134: at the point zero the basis values are the products of
`gf_mul(x_j, gf_inv(x_i ^ x_j))`, and they do not depend on the y-values. -/
def Obligations.LagrangeAtZeroUsesTheNodes : Prop :=
  ∀ (xs : List Elem) (i : Nat), xs.Nodup → i < xs.length →
    ∃ ds : List Elem, (List.range xs.length).Forall₂
        (fun j d => if j = i then d = 0x01#8
          else ∃ r, gfInv (xs.getD i 0x00#8 ^^^ xs.getD j 0x00#8) = some r ∧ d = gfMul (xs.getD j 0x00#8) r) ds ∧
      lagrangeBasis xs 0x00#8 i = some (ds.foldl gfMul 0x01#8)

/-- 43_lagrange_interpolation.md R135: the formula has a value exactly when the x-coordinates are pairwise distinct,
so after the checks no inversion is outside its domain and neither command raises INV_ZERO. -/
def Obligations.NoZeroDenominatorAfterTheChecks : Prop :=
  (∀ (xs ys : List Elem) (xstar : Elem), xs ≠ [] → ys.length = xs.length →
    ((lagrange xs ys xstar).isSome = true ↔ xs.Nodup)) ∧
  (∀ (rd rs : Reg) (len : Count) (s t : State), s.status.err = false →
    (exec (.interp0 rd len) s = .next t ∨ exec (.interp rd rs len) s = .next t) → t.status.err = true →
      t.status.cause ≠ .invZero)

/-- 43_lagrange_interpolation.md R131, R132, whole: INTERP0 checks its x-coordinates in order and writes the
interpolation at 0x00; one point gives `YV[0]`. -/
def Obligations.Interp0FollowsItsRule : Prop :=
  (∀ (rd : Reg) (len : Count),
    decode (wordOfBytes 0x30#8 (regByte rd) 0x00#8 len) = .ok (.interp0 rd len) ∧
    DroppedWhenLatched (.interp0 rd len) ∧
    ∀ s : State, s.status.err = false →
      InterpolatesTo (.interp0 rd len) s rd 0x00#8 len ∧
      (len = 0x01#8 → s.elem .xv 0 ≠ 0x00#8 → WritesReg (.interp0 rd len) s rd (s.elem .yv 0))) ∧
  (∀ d a b : BitVec 8, 7 < d.toNat ∨ a ≠ 0x00#8 → RaisesIllegal (wordOfBytes 0x30#8 d a b))

/-- 43_lagrange_interpolation.md R131, R133, whole but for the interpolation identity (its own statement): INTERP
makes the same checks and writes the interpolation at `F[rs]`; at the point zero it is INTERP0, at a node `XV[k]`
it gives `YV[k]`. -/
def Obligations.InterpFollowsItsRule : Prop :=
  (∀ (rd rs : Reg) (len : Count),
    decode (wordOfBytes 0x31#8 (regByte rd) (regByte rs) len) = .ok (.interp rd rs len) ∧
    DroppedWhenLatched (.interp rd rs len) ∧
    ∀ s : State, s.status.err = false →
      InterpolatesTo (.interp rd rs len) s rd (s.reg rs) len ∧
      (s.reg rs = 0x00#8 → exec (.interp rd rs len) s = exec (.interp0 rd len) s) ∧
      (∀ k, DistinctX s len.toNat → k < len.toNat → s.reg rs = s.elem .xv k →
        WritesReg (.interp rd rs len) s rd (s.elem .yv k))) ∧
  (∀ d a b : BitVec 8, 7 < d.toNat ∨ 7 < a.toNat → RaisesIllegal (wordOfBytes 0x31#8 d a b))

/-- 43_lagrange_interpolation.md R133, the interpolation identity, on the block: when `YV[i]` is the value at
`XV[i]` of the polynomial in `CV[0..n-1]` for at least `n` distinct non-zero points, INTERP is EVAL at every point,
and INTERP0 gives back `CV[0]`. -/
def Obligations.InterpolationRecoversThePolynomial : Prop :=
  ∀ (n len : Count) (s : State), s.status.err = false → n ≠ 0x00#8 → n.toNat ≤ len.toNat → DistinctX s len.toNat →
    (∀ i, i < len.toNat →
      polyEval ((List.range n.toNat).map (s.elem .cv)) (s.elem .xv i) = some (s.elem .yv i)) →
    (∀ rd rs : Reg, exec (.interp rd rs len) s = exec (.eval rd rs n) s) ∧
    (∀ rd : Reg, WritesReg (.interp0 rd len) s rd (s.elem .cv 0))

/-- 44_system.md R150, whole: NOP changes nothing, and every other word of its opcode is illegal. -/
def Obligations.NopFollowsItsRule : Prop :=
  decode 0x40000000#32 = .ok .nop ∧ (∀ s : State, exec .nop s = .next s) ∧
  (∀ d a b : BitVec 8, d ≠ 0x00#8 ∨ a ≠ 0x00#8 ∨ b ≠ 0x00#8 → RaisesIllegal (wordOfBytes 0x40#8 d a b))

/-- 44_system.md R151, whole: CLRERR makes STATUS zero and touches nothing else, whatever the latch; with a legal
status and ERR = 0 it changes nothing; every other word of its opcode is illegal with the latch clear and dropped
with it set. -/
def Obligations.ClrerrFollowsItsRule : Prop :=
  decode 0x41000000#32 = .ok .clrerr ∧
  (∀ s : State, ∃ t, exec .clrerr s = .next t ∧ t.status = { err := false, cause := .none, einfo := 0x00#8 } ∧
    OnlyStatusChanges s t) ∧
  (∀ s : State, s.status.legal = true → s.status.err = false → exec .clrerr s = .next s) ∧
  (∀ d a b : BitVec 8, d ≠ 0x00#8 ∨ a ≠ 0x00#8 ∨ b ≠ 0x00#8 → RaisesIllegal (wordOfBytes 0x41#8 d a b) ∧
    ∀ s : State, s.status.err = true → acceptWord (wordOfBytes 0x41#8 d a b) s = .next s)

/-- 44_system.md R152, whole: WIPE makes every register and every element zero and leaves STATUS, whatever the
latch; every other word of its opcode is illegal with the latch clear and dropped with it set. -/
def Obligations.WipeFollowsItsRule : Prop :=
  decode 0x42000000#32 = .ok .wipe ∧
  (∀ s : State, ∃ t, exec .wipe s = .next t ∧ (∀ r, t.reg r = 0x00#8) ∧ (∀ m i, t.elem m i = 0x00#8) ∧
    t.status = s.status ∧ t.host = s.host) ∧
  (∀ d a b : BitVec 8, d ≠ 0x00#8 ∨ a ≠ 0x00#8 ∨ b ≠ 0x00#8 → RaisesIllegal (wordOfBytes 0x42#8 d a b) ∧
    ∀ s : State, s.status.err = true → acceptWord (wordOfBytes 0x42#8 d a b) s = .next s)

/-- 60_exceptions.md R161, R162: with the latch clear, accepting a word leaves a cause and EINFO in STATUS with ERR
set exactly when the table's condition for that cause holds. -/
def Obligations.FaultsAreExactlyTheTable : Prop :=
  ∀ (w : Word) (s : State), s.status.err = false → ∀ (c : Cause) (info : BitVec 8),
    (∃ t, acceptWord w s = .next t ∧ t.status = { err := true, cause := c, einfo := info }) ↔
      FaultCondition w s c info

/-- 60_exceptions.md R163: a word that sets the latch changes STATUS and nothing else, and records a cause. -/
def Obligations.FaultsArePrecise : Prop :=
  ∀ (w : Word) (s t : State), s.status.err = false → acceptWord w s = .next t → t.status.err = true →
    t.status.cause ≠ .none ∧ Raised t.status.cause t.status.einfo s t

/-- 60_exceptions.md R164: the step for an accepted word. Under the latch only the two exact words act and every
other word, illegal or not, changes nothing; with the latch clear the word is decoded and run. -/
def Obligations.LatchDropsAllButTwoWords : Prop :=
  (∀ (w : Word) (s : State), s.status.err = true →
    (w = 0x41000000#32 → ∃ t, acceptWord w s = .next t ∧
      t.status = { err := false, cause := .none, einfo := 0x00#8 } ∧ OnlyStatusChanges s t) ∧
    (w = 0x42000000#32 → ∃ t, acceptWord w s = .next t ∧ (∀ r, t.reg r = 0x00#8) ∧
      (∀ m i, t.elem m i = 0x00#8) ∧ t.status = s.status ∧ t.host = s.host) ∧
    (w ≠ 0x41000000#32 → w ≠ 0x42000000#32 → acceptWord w s = .next s)) ∧
  (∀ (w : Word) (s : State), s.status.err = false →
    (∀ i, decode w = .ok i → acceptWord w s = exec i s) ∧
    ((∃ e, decode w = .error e) → ∃ t, acceptWord w s = .next t ∧ Raised .illegalCmd (w.extractLsb' 24 8) s t))

/-- 60_exceptions.md R164, R165: over any sequence of words without CLRERR, a set latch stays set and CAUSE and
EINFO keep describing the first fault. -/
def Obligations.FirstFaultIsKeptUntilCleared : Prop :=
  ∀ (ws : List Word) (s : State), s.status.err = true → 0x41000000#32 ∉ ws →
    ∃ t : State, Host.Core.run Sys2Proof.core ws.length (s.withInputs (ws.map .command)) = .next t ∧
      t.status = s.status

/-- 60_exceptions.md R165: after CLRERR the next command executes normally, from the state the fault left but for
STATUS. -/
def Obligations.CommandAfterClrerrExecutes : Prop :=
  ∀ (w : Word) (i : Instr) (s : State), decode w = .ok i → s.host = [.command 0x41000000#32, .command w] →
    ∃ u : State, u.status = { err := false, cause := .none, einfo := 0x00#8 } ∧ (∀ r, u.reg r = s.reg r) ∧
      (∀ m k, u.elem m k = s.elem m k) ∧ u.host = [] ∧ Host.Core.run Sys2Proof.core 2 s = exec i u

/-- 20_memory.md R46, R56; 60_exceptions.md R164: when the host's next input is a word that decodes to a command,
the step is that command's effect on the state with the word taken, latched or not. That the word is taken from
`State.host` is the model's choice (log entry 1). -/
def Obligations.StepRunsTheDecodedCommand : Prop :=
  ∀ (w : Word) (i : Instr) (rest : List HostInput) (s : State), s.host = .command w :: rest → decode w = .ok i →
    step s = exec i { s with host := rest }

/-- 30_encoding.md R65; 60_exceptions.md R169: an illegal word next is one step that raises ILLEGAL_CMD (latch
clear); with no input to come the step changes nothing (the idle step is the model's choice, log entry 1). -/
def Obligations.StepOfIllegalWordAndIdleStep : Prop :=
  (∀ (w : Word) (rest : List HostInput) (s : State), s.host = .command w :: rest → s.status.err = false →
    (∃ e, decode w = .error e) →
    ∃ t, step s = .next t ∧ Raised .illegalCmd (w.extractLsb' 24 8) { s with host := rest } t) ∧
  (∀ s : State, s.host = [] → step s = .next s)

/-- 10_state.md R22, R23; 60_exceptions.md R161: every step from a state that meets the invariant leads to one that
meets it. The canonical form of the memories in it is the model's choice (log entry 3). -/
def Obligations.StepKeepsTheInvariant : Prop := ∀ s t : State, s.Inv → step s = .next t → t.Inv

/-- 10_state.md R28: the state after reset, location by location. -/
def Obligations.ResetStateIsAllZero : Prop :=
  AllZero State.reset ∧ State.reset.status.word = 0x00000000#32

/-- The reset state meets the invariant that every step keeps (the canonical form of the memories in it is the
model's choice, log entry 3). -/
def Obligations.ResetMeetsTheInvariant : Prop := State.reset.Inv

/-- 20_memory.md R56; 43_lagrange_interpolation.md R135: the block never ends a run: from every state, in the
invariant or not, a step answers a next state, and it takes the host's next input and no other. -/
def Obligations.EveryStepGoesOn : Prop := ∀ s : State, ∃ t, step s = .next t ∧ t.host = s.host.tail

/-- 44_system.md R153: a sequence of n words, presented by the host (log entry 1), takes exactly n steps. -/
def Obligations.NWordsTakeNSteps : Prop :=
  ∀ (ws : List Word) (s : State), ∃ t : State,
    Host.Core.run Sys2Proof.core ws.length (s.withInputs (ws.map .command)) = .next t ∧ t.host = []

/-- 70_reset_and_hazards.md R190, R191: a cycle with `rst = 1` makes everything zero, whatever is in flight, accepts
no command, and leaves the block idle and ready. -/
def Obligations.ResetClearsEverything : Prop :=
  ∀ (b : Block) (p : PortsIn), p.rst = true →
    b.cmdReady p = false ∧
    ∃ b', b.clock p = .next b' ∧ AllZero b'.core ∧ b'.inFlight = none ∧ ∀ q : PortsIn, q.rst = false → b'.cmdReady q = true

/-- 70_reset_and_hazards.md R190: WIPE followed by CLRERR gives the reset state by commands. -/
def Obligations.WipeThenClrerrIsReset : Prop :=
  ∀ s : State, s.host = [.command 0x42000000#32, .command 0x41000000#32] →
    Host.Core.run Sys2Proof.core 2 s = .next State.reset

/-- 20_memory.md R47; 41_data_movement.md R110: a read gives what was last written, and a write changes no other
register or element. -/
def Obligations.ReadsReturnTheLastWrite : Prop :=
  (∀ (s : State) (m : VecMem) (i : Nat) (v : Elem),
    (s.setElem m i v).elem m i = v ∧ OnlyElemChanges m i s (s.setElem m i v)) ∧
  (∀ (s : State) (rd : Reg) (v : Elem), (s.setReg rd v).reg rd = v ∧ OnlyRegChanges rd s (s.setReg rd v))

/-- The canonical form of log entry 3 (the model's choice): two memories in it that read alike are equal. -/
def Obligations.MemoriesThatReadAlikeAreEqual : Prop :=
  ∀ m m' : Memory, Memory.wf m = true → Memory.wf m' = true → (∀ i, Memory.read m i = Memory.read m' i) → m = m'

/-- 20_memory.md R44: what each selector of the read port shows, in every cycle, also while a command executes. -/
def Obligations.ReadPortShowsTheState : Prop :=
  ∀ (b : Block) (p : PortsIn),
    (∀ r : Reg, p.rdSel.toNat = r.val → (b.outputs p).rdData.extractLsb' 0 8 = b.core.reg r ∧
      (b.outputs p).rdData.extractLsb' 8 24 = 0#24) ∧
    (p.rdSel = 8#4 → (b.outputs p).rdData = b.core.status.word) ∧
    (9 ≤ p.rdSel.toNat → (b.outputs p).rdData = 0x00000000#32)

/-- 10_state.md R23; 60_exceptions.md R161: the fields of STATUS as read, bit by bit. -/
def Obligations.StatusWordLayout : Prop :=
  ∀ t : Status, t.word.getLsbD 0 = t.err ∧ t.word.extractLsb' 1 3 = 0#3 ∧
    t.word.extractLsb' 4 4 = (match t.cause with
      | .none => 0#4 | .illegalCmd => 1#4 | .invZero => 2#4 | .badLen => 3#4 | .zeroX => 4#4 | .dupX => 5#4) ∧
    t.word.extractLsb' 8 8 = t.einfo ∧ t.word.extractLsb' 16 16 = 0#16

/-- 10_state.md R22, R25; 20_memory.md R47: the whole frame. Over all commands, a register changes only as a
command's destination or by WIPE, an element only as the target of its own store or set command or by WIPE, and
STATUS only by CLRERR or by setting the latch. -/
def Obligations.OnlyNamedLocationsChange : Prop :=
  ∀ (i : Instr) (s t : State), exec i s = .next t →
    (∀ r, t.reg r ≠ s.reg r → destReg i = some r ∨ i = .wipe) ∧
    (∀ m k, t.elem m k ≠ s.elem m k → destElem i = some (m, k) ∨ i = .wipe) ∧
    (t.status ≠ s.status → i = .clrerr ∨ (s.status.err = false ∧ t.status.err = true)) ∧
    t.host = s.host

/-- 70_reset_and_hazards.md R194: a command's result, the fault it raises included, depends on the operands its rule
names and on nothing else, of STATUS on the latch alone. -/
def Obligations.ResultsDependOnNamedOperandsOnly : Prop :=
  ∀ (i : Instr) (s s' t t' : State), SameOperands i s s' → s.status.err = false → s'.status.err = false →
    exec i s = .next t → exec i s' = .next t' →
    t.status.err = t'.status.err ∧ (t.status.err = true → t.status = t'.status) ∧
    (t.status.err = false → (∀ r, destReg i = some r ∨ i = .wipe → t.reg r = t'.reg r) ∧
      (∀ m k, destElem i = some (m, k) ∨ i = .wipe → t.elem m k = t'.elem m k))

/-- 20_memory.md R41, R44, R46: a word accepted by an idle block keeps `cmd_ready` at 0 and the old state on the
ports for `LAT(op, len)` cycles, whatever is presented meanwhile, and then its whole effect is there and the block
is ready. Which cycles LAT counts, and its argument for words without a `len`, are the model's choice (log entry 6). -/
def Obligations.CommandTakesItsLatency : Prop :=
  ∀ (b : Block) (p : PortsIn) (ps : List PortsIn), b.inFlight = none → p.rst = false → p.cmdValid = true →
    (∀ q ∈ ps, q.rst = false) →
    b.cmdReady p = true ∧
    (ps.length < cyclesOfWord p.cmdWord →
      ∃ b', b.clocks (p :: ps) = .next b' ∧ b'.core = b.core ∧ ∀ q, b'.cmdReady q = false) ∧
    (ps.length = cyclesOfWord p.cmdWord →
      ∃ b', b.clocks (p :: ps) = .next b' ∧ acceptWord p.cmdWord b.core = .next b'.core ∧
        ∀ q : PortsIn, q.rst = false → b'.cmdReady q = true)

/-- 20_memory.md R46, R50, R56: the ports refine the step: over any cycles, from any block, the state at the end is
what the inputs that completed in them, in order, make of the state at the start (the two layers are log entries 1
and 2). -/
def Obligations.PortsRefineSteps : Prop :=
  ∀ (b : Block) (ps : List PortsIn), ∃ b', b.clocks ps = .next b' ∧
    Host.Core.run Sys2Proof.core (b.completed ps).length (b.core.withInputs (b.completed ps)) =
      .next (b'.core.withInputs [])

/-- 70_reset_and_hazards.md R198: two blocks that differ only in what they store show the same `cmd_ready` in every
cycle, whatever the ports are driven with. It rests on LAT being a function of opcode and `len` alone (log entry 6). -/
def Obligations.ReadyDoesNotDependOnStoredValues : Prop :=
  ∀ (b₁ b₂ b₁' b₂' : Block) (ps : List PortsIn) (q : PortsIn), b₁.inFlight = b₂.inFlight →
    b₁.clocks ps = .next b₁' → b₂.clocks ps = .next b₂' → b₁'.cmdReady q = b₂'.cmdReady q

/-- 30_encoding.md R69, whole: the expansion of each pseudo-instruction is the table's, and running it does what the
name says; `MOV rd, rd` is not defined. -/
def Obligations.PseudoInstructionsAreRight : Prop :=
  (∀ (rd rs1 rs2 : Reg), Pseudo.expand (.gfsub rd rs1 rs2) = some [.gfadd rd rs1 rs2] ∧
    ∀ s : State, s.status.err = false →
      ∃ t, execAll [.gfadd rd rs1 rs2] s = .next t ∧ gfAdd (t.reg rd) (s.reg rs2) = s.reg rs1 ∧ OnlyRegChanges rd s t) ∧
  (∀ (rd rs : Reg), Pseudo.expand (.gfsqr rd rs) = some [.gfmul rd rs rs] ∧
    ∀ s : State, s.status.err = false →
      ∃ t, execAll [.gfmul rd rs rs] s = .next t ∧ t.reg rd = gfPow (s.reg rs) 2 ∧ OnlyRegChanges rd s t) ∧
  (∀ rd : Reg, Pseudo.expand (.clr rd) = some [.ldi rd 0x00#8] ∧
    ∀ s : State, s.status.err = false →
      ∃ t, execAll [.ldi rd 0x00#8] s = .next t ∧ t.reg rd = 0x00#8 ∧ OnlyRegChanges rd s t) ∧
  (∀ (rd rs : Reg), rd ≠ rs → Pseudo.expand (.mov rd rs) = some [.ldi rd 0x00#8, .gfadd rd rd rs] ∧
    ∀ s : State, s.status.err = false →
      ∃ t, execAll [.ldi rd 0x00#8, .gfadd rd rd rs] s = .next t ∧ t.reg rd = s.reg rs ∧ OnlyRegChanges rd s t) ∧
  (∀ rd : Reg, Pseudo.expand (.mov rd rd) = none)

/-- 30_encoding.md R68: assembling the printed line of a command gives that command and, encoded, its word.
The printed form of a number is the model's choice (log entry 15). -/
def Obligations.AssemblyRoundTrip : Prop :=
  ∀ i : Instr, assembleLine (printInstr i) = some [i] ∧ assembleProgram [printInstr i] = some [encode i]
end

