-- ==== Sys2Proof/Laws/Assembly.lean ====
section
/-!
SUPPORT. Numbers and registers of the assembly text read back as they are printed.
-/
namespace Sys2Proof.Machine

@[simp] theorem digitValue_hexDigit {n : Nat} (h : n < 16) : digitValue 16 (hexDigit n) = some n := by
  have all : ∀ k : Fin 16, digitValue 16 (hexDigit k) = some k.val := by decide +kernel
  exact all ⟨n, h⟩

/-- Two hexadecimal digits of a byte, the high one first, read back as the byte. -/
theorem readNumber_two_digits (v : BitVec 8) :
    readNumber 16 [hexDigit (v.toNat / 16), hexDigit (v.toNat % 16)] = some (.num v) := by
  have hv := v.isLt
  have value : v.toNat / 16 * 16 + v.toNat % 16 = v.toNat := by omega
  have range : v.toNat ≤ 255 := by omega
  simp [readNumber, digitValue_hexDigit (show v.toNat / 16 < 16 by omega),
    digitValue_hexDigit (show v.toNat % 16 < 16 by omega), value, range]

/-- The text of an operand reads back as the operand. -/
theorem readOperand_printOperand (o : AsmOperand) : readOperand (printOperand o) = some o := by
  cases o with
  | reg r =>
    have all : ∀ q : Fin 8, readOperand (printOperand (.reg q)) = some (.reg q) := by decide +kernel
    exact all r
  | num v => exact readNumber_two_digits v

end Sys2Proof.Machine
end

