-- ==== Sys2Proof/Laws/Decode.lean ====
section
/-!
SUPPORT. The laws of the fields of a command word: taking a word apart and putting it together are inverse, and a
register field reads back.
-/
namespace Sys2Proof

theorem wordOfFields_eq_append (x : Fields) :
    wordOfFields x = (x.op ++ x.d ++ x.a ++ x.b : BitVec (8 + 8 + 8 + 8)) := by
  apply BitVec.eq_of_getLsbD_eq
  intro i hi
  simp only [wordOfFields, BitVec.getLsbD_or, BitVec.getLsbD_shiftLeft, BitVec.getLsbD_setWidth,
    BitVec.getLsbD_append]
  rcases lt_or_ge i 8 with h | h
  · simp [h, hi, show i < 16 by omega, show i < 24 by omega]
  · rcases lt_or_ge i 16 with h2 | h2
    · simp [show ¬ i < 8 by omega, hi, h2, show i < 24 by omega, show i - 8 < 8 by omega,
        BitVec.getLsbD_of_ge x.b i (by omega)]
      omega
    · rcases lt_or_ge i 24 with h3 | h3
      · simp [show ¬ i < 8 by omega, hi, h3, show ¬ i < 16 by omega, show ¬ (i - 8 < 8) by omega,
          show i - 8 - 8 < 8 by omega, BitVec.getLsbD_of_ge x.b i (by omega),
          BitVec.getLsbD_of_ge x.a (i - 8) (by omega), show i - 16 = i - 8 - 8 by omega]
        omega
      · simp [show ¬ i < 8 by omega, hi, show ¬ i < 24 by omega, show ¬ i < 16 by omega,
          show ¬ (i - 8 < 8) by omega, show ¬ (i - 8 - 8 < 8) by omega,
          BitVec.getLsbD_of_ge x.b i (by omega), BitVec.getLsbD_of_ge x.a (i - 8) (by omega),
          BitVec.getLsbD_of_ge x.d (i - 16) (by omega), show i - 24 = i - 8 - 8 - 8 by omega]
        omega

/-- The fields of an assembled word are the fields it was assembled from. -/
@[simp] theorem fieldsOfWord_wordOfFields (x : Fields) : fieldsOfWord (wordOfFields x) = x := by
  obtain ⟨op, d, a, b⟩ := x
  simp only [fieldsOfWord, wordOfFields_eq_append, Fields.mk.injEq]
  refine ⟨?_, ?_, ?_, ?_⟩ <;>
  · apply BitVec.eq_of_getLsbD_eq
    intro i hi
    simp only [BitVec.getLsbD_extractLsb', BitVec.getLsbD_append, hi, decide_true, Bool.true_and]
    grind

/-- A word assembled from its own fields is the word. -/
@[simp] theorem wordOfFields_fieldsOfWord (w : Word) : wordOfFields (fieldsOfWord w) = w := by
  rw [wordOfFields_eq_append]
  apply BitVec.eq_of_getLsbD_eq
  intro i hi
  simp only [fieldsOfWord, BitVec.getLsbD_extractLsb', BitVec.getLsbD_append]
  grind

@[simp] theorem regField_fieldOfReg (r : Reg) : regField (fieldOfReg r) = .ok r := by
  have h : (fieldOfReg r).toNat = r.val := by simp [fieldOfReg]; omega
  simp [regField, h]

theorem fieldOfReg_regField {v : BitVec 8} {r : Reg} (h : regField v = .ok r) : fieldOfReg r = v := by
  unfold regField at h
  split at h
  · cases h
    apply BitVec.eq_of_toNat_eq
    simp [fieldOfReg]
  · cases h

theorem regField_ok_iff (v : BitVec 8) (r : Reg) : regField v = .ok r ↔ v = fieldOfReg r :=
  ⟨fun h => (fieldOfReg_regField h).symm, fun h => h ▸ regField_fieldOfReg r⟩

theorem regField_error_iff (v : BitVec 8) : (∃ e, regField v = .error e) ↔ 7 < v.toNat := by
  unfold regField
  split <;> simp <;> omega

@[simp] theorem zeroField_zero : zeroField 0x00#8 = .ok () := rfl

theorem zeroField_ok_iff (v : BitVec 8) (u : Unit) : zeroField v = .ok u ↔ v = 0x00#8 := by
  unfold zeroField
  split <;> simp [*]

/-- A decoder's step succeeds exactly when its first part and the rest do. -/
theorem except_bind_ok_iff {α β : Type} (m : Except IllegalWord α) (k : α → Except IllegalWord β) (r : β) :
    (m >>= k) = .ok r ↔ ∃ v, m = .ok v ∧ k v = .ok r := by
  cases m <;> simp [bind, Except.bind]

/-- A decoder's step fails exactly when its first part does or, after it, the rest. -/
theorem except_bind_error_iff {α β : Type} (m : Except IllegalWord α) (k : α → Except IllegalWord β) :
    (∃ e, (m >>= k) = .error e) ↔ (∃ e, m = .error e) ∨ ∃ v, m = .ok v ∧ ∃ e, k v = .error e := by
  cases m <;> simp [bind, Except.bind]

theorem zeroField_error_iff (v : BitVec 8) : (∃ e, zeroField v = .error e) ↔ v ≠ 0x00#8 := by
  unfold zeroField
  split <;> simp [*]

end Sys2Proof
end

