-- ==== Sys2Proof/Laws/State.lean ====
section
/-!
SUPPORT. One lemma per field per update of the state, and what the reads `State.reg` and `State.elem` give after
each update, so that no proof unfolds a record update.
-/
namespace Sys2Proof.Machine

section SetReg
variable (s : State) (r : Reg) (v : Elem)

@[simp] theorem State.setReg_cv : (s.setReg r v).cv = s.cv := rfl
@[simp] theorem State.setReg_xv : (s.setReg r v).xv = s.xv := rfl
@[simp] theorem State.setReg_yv : (s.setReg r v).yv = s.yv := rfl
@[simp] theorem State.setReg_status : (s.setReg r v).status = s.status := rfl
@[simp] theorem State.setReg_host : (s.setReg r v).host = s.host := rfl
@[simp] theorem State.setReg_mem (m : VecMem) : (s.setReg r v).mem m = s.mem m := by cases m <;> rfl
@[simp] theorem State.setReg_elem (m : VecMem) (i : Nat) : (s.setReg r v).elem m i = s.elem m i := by
  simp [State.elem]

theorem State.reg_setReg (q : Reg) : (s.setReg r v).reg q = if q = r then v else s.reg q := by
  by_cases h : q = r
  · subst h; simp [State.reg, State.setReg]
  · have : r.val ≠ q.val := fun e => h (Fin.ext e.symm)
    simp [State.reg, State.setReg, h, Vector.getElem_set_ne, this]

@[simp] theorem State.reg_setReg_same : (s.setReg r v).reg r = v := by simp [State.reg_setReg]

theorem State.reg_setReg_ne {q : Reg} (h : q ≠ r) : (s.setReg r v).reg q = s.reg q := by
  simp [State.reg_setReg, h]

end SetReg

section SetElem
variable (s : State) (m : VecMem) (i : Nat) (v : Elem)

@[simp] theorem State.setElem_f : (s.setElem m i v).f = s.f := by cases m <;> rfl
@[simp] theorem State.setElem_status : (s.setElem m i v).status = s.status := by cases m <;> rfl
@[simp] theorem State.setElem_host : (s.setElem m i v).host = s.host := by cases m <;> rfl
@[simp] theorem State.setElem_reg (r : Reg) : (s.setElem m i v).reg r = s.reg r := by cases m <;> rfl
@[simp] theorem State.setElem_mem_same : (s.setElem m i v).mem m = Memory.write (s.mem m) i v := by cases m <;> rfl
theorem State.setElem_mem_ne {m' : VecMem} (h : m' ≠ m) : (s.setElem m i v).mem m' = s.mem m' := by
  cases m <;> cases m' <;> first | exact absurd rfl h | rfl

end SetElem

section Raise
variable (s : State) (c : Cause) (info : BitVec 8)

@[simp] theorem State.raise_f : (s.raise c info).f = s.f := rfl
@[simp] theorem State.raise_cv : (s.raise c info).cv = s.cv := rfl
@[simp] theorem State.raise_xv : (s.raise c info).xv = s.xv := rfl
@[simp] theorem State.raise_yv : (s.raise c info).yv = s.yv := rfl
@[simp] theorem State.raise_status : (s.raise c info).status = { err := true, cause := c, einfo := info } := rfl
@[simp] theorem State.raise_host : (s.raise c info).host = s.host := rfl
@[simp] theorem State.raise_reg (r : Reg) : (s.raise c info).reg r = s.reg r := rfl
@[simp] theorem State.raise_elem (m : VecMem) (i : Nat) : (s.raise c info).elem m i = s.elem m i := by cases m <;> rfl

end Raise

section ClearError
variable (s : State)

@[simp] theorem State.clearError_f : s.clearError.f = s.f := rfl
@[simp] theorem State.clearError_cv : s.clearError.cv = s.cv := rfl
@[simp] theorem State.clearError_xv : s.clearError.xv = s.xv := rfl
@[simp] theorem State.clearError_yv : s.clearError.yv = s.yv := rfl
@[simp] theorem State.clearError_status : s.clearError.status = Status.clear := rfl
@[simp] theorem State.clearError_host : s.clearError.host = s.host := rfl
@[simp] theorem State.clearError_reg (r : Reg) : s.clearError.reg r = s.reg r := rfl
@[simp] theorem State.clearError_elem (m : VecMem) (i : Nat) : s.clearError.elem m i = s.elem m i := by cases m <;> rfl

end ClearError

section Wipe
variable (s : State)

@[simp] theorem State.wipe_cv : s.wipe.cv = [] := rfl
@[simp] theorem State.wipe_xv : s.wipe.xv = [] := rfl
@[simp] theorem State.wipe_yv : s.wipe.yv = [] := rfl
@[simp] theorem State.wipe_status : s.wipe.status = s.status := rfl
@[simp] theorem State.wipe_host : s.wipe.host = s.host := rfl
@[simp] theorem State.wipe_reg (r : Reg) : s.wipe.reg r = 0x00#8 := by simp [State.reg, State.wipe]
@[simp] theorem State.wipe_elem (m : VecMem) (i : Nat) : s.wipe.elem m i = 0x00#8 := by cases m <;> rfl

end Wipe

section Reset
variable (s : State)

@[simp] theorem State.resetBlock_cv : s.resetBlock.cv = [] := rfl
@[simp] theorem State.resetBlock_xv : s.resetBlock.xv = [] := rfl
@[simp] theorem State.resetBlock_yv : s.resetBlock.yv = [] := rfl
@[simp] theorem State.resetBlock_status : s.resetBlock.status = Status.clear := rfl
@[simp] theorem State.resetBlock_host : s.resetBlock.host = s.host := rfl
@[simp] theorem State.resetBlock_reg (r : Reg) : s.resetBlock.reg r = 0x00#8 := by
  simp [State.reg, State.resetBlock, State.reset]
@[simp] theorem State.resetBlock_elem (m : VecMem) (i : Nat) : s.resetBlock.elem m i = 0x00#8 := by cases m <;> rfl

end Reset

section Host
variable (s : State) (hs : List HostInput)

@[simp] theorem State.setHost_reg (r : Reg) : State.reg { s with host := hs } r = s.reg r := rfl
@[simp] theorem State.setHost_elem (m : VecMem) (i : Nat) : State.elem { s with host := hs } m i = s.elem m i := by
  cases m <;> rfl
@[simp] theorem State.withInputs_reg (r : Reg) : (s.withInputs hs).reg r = s.reg r := rfl
@[simp] theorem State.withInputs_elem (m : VecMem) (i : Nat) : (s.withInputs hs).elem m i = s.elem m i := by
  cases m <;> rfl
@[simp] theorem State.withInputs_status : (s.withInputs hs).status = s.status := rfl
@[simp] theorem State.withInputs_host : (s.withInputs hs).host = hs := rfl
@[simp] theorem State.present_host (w : Word) : (s.present w).host = .command w :: s.host := rfl
@[simp] theorem State.present_reg (w : Word) (r : Reg) : (s.present w).reg r = s.reg r := rfl
@[simp] theorem State.present_status (w : Word) : (s.present w).status = s.status := rfl

end Host

/-! The frames of the shared updates. -/

theorem setReg_onlyReg (s : State) (rd : Reg) (v : Elem) : OnlyRegChanges rd s (s.setReg rd v) :=
  ⟨fun _ h => s.reg_setReg_ne rd v h, fun _ _ => s.setReg_elem rd v _ _, rfl, rfl⟩

theorem raise_raised (s : State) (c : Cause) (info : BitVec 8) : Raised c info s (s.raise c info) :=
  ⟨rfl, fun _ => rfl, fun _ _ => s.raise_elem c info _ _, rfl⟩

theorem clearError_onlyStatus (s : State) : OnlyStatusChanges s s.clearError :=
  ⟨fun _ => rfl, fun _ _ => s.clearError_elem _ _, rfl⟩

end Sys2Proof.Machine
end

