-- ==== Sys2Proof/Laws/Memory.lean ====
section
/-!
SUPPORT. The laws of a vector memory: what a read gives after a write, for every list, and that every operation
keeps the canonical form.
-/
namespace Sys2Proof.Machine

@[simp] theorem Memory.read_nil (i : Nat) : Memory.read [] i = 0x00#8 := rfl

theorem Memory.read_cons (c : Host.Cell) (m : Memory) (i : Nat) :
    Memory.read (c :: m) i = if c.1 = i then c.2 else Memory.read m i := rfl

theorem Memory.read_erase (m : Memory) (i j : Nat) :
    Memory.read (Memory.erase i m) j = if j = i then 0x00#8 else Memory.read m j := by
  induction m with
  | nil => simp [Memory.erase]
  | cons c m ih =>
    simp only [Memory.erase] at ih ⊢
    by_cases hc : c.1 = i
    · rw [List.filter_cons_of_neg (by simp [hc]), ih, Memory.read_cons]
      split
      · rfl
      · rw [if_neg (by omega)]
    · rw [List.filter_cons_of_pos (by simp [hc]), Memory.read_cons, ih, Memory.read_cons]
      by_cases hj : c.1 = j
      · rw [if_pos hj, if_pos hj, if_neg (by omega)]
      · rw [if_neg hj, if_neg hj]

theorem Memory.read_insert (m : Memory) (i : Nat) (v : Elem) (j : Nat) (h : ∀ c ∈ m, c.1 ≠ i) :
    Memory.read (Memory.insert i v m) j = if j = i then v else Memory.read m j := by
  induction m with
  | nil => simp [Memory.insert, Memory.read_cons, eq_comm]
  | cons c m ih =>
    have hc : c.1 ≠ i := h c (List.mem_cons_self ..)
    have ih := ih fun d hd => h d (List.mem_cons_of_mem _ hd)
    unfold Memory.insert
    split
    · rw [Memory.read_cons]; simp [eq_comm]
    · rw [Memory.read_cons, ih, Memory.read_cons]
      by_cases hj : c.1 = j
      · rw [if_pos hj, if_pos hj, if_neg (by omega)]
      · rw [if_neg hj, if_neg hj]

theorem Memory.erase_ne (m : Memory) (i : Nat) : ∀ c ∈ Memory.erase i m, c.1 ≠ i := by
  intro c hc
  simpa using (List.mem_filter.mp hc).2

/-- A read after a write gives the value written, and every other index reads as before. -/
theorem Memory.read_write (m : Memory) (i : Nat) (v : Elem) (j : Nat) :
    Memory.read (Memory.write m i v) j = if j = i then v else Memory.read m j := by
  unfold Memory.write
  split
  · next h => rw [Memory.read_erase, h]
  · rw [Memory.read_insert _ _ _ _ (Memory.erase_ne m i), Memory.read_erase]
    split <;> simp [*]

/-- The lower bound of a canonical form with nothing before it, or with index `b` before it. -/
def Memory.above (lo : Option Nat) (k : Nat) : Prop := ∀ b, lo = some b → b < k

theorem Memory.wfFrom_cons (lo : Option Nat) (c : Host.Cell) (m : Memory) :
    Memory.wfFrom lo (c :: m) = true ↔
      Memory.above lo c.1 ∧ c.1 < 256 ∧ c.2 ≠ 0x00#8 ∧ Memory.wfFrom (some c.1) m = true := by
  obtain ⟨k, v⟩ := c
  cases lo <;> simp [Memory.wfFrom, Memory.above, and_assoc]

theorem Memory.above_trans {lo : Option Nat} {i k : Nat} (h : Memory.above lo i) (hk : i < k) : Memory.above lo k :=
  fun b hb => lt_trans (h b hb) hk

theorem Memory.wfFrom_weaken {lo lo' : Option Nat} {m : Memory} (h : ∀ k, Memory.above lo k → Memory.above lo' k)
    (hm : Memory.wfFrom lo m = true) : Memory.wfFrom lo' m = true := by
  cases m with
  | nil => rfl
  | cons c m =>
    rw [Memory.wfFrom_cons] at hm ⊢
    exact ⟨h _ hm.1, hm.2⟩

theorem Memory.wfFrom_erase (i : Nat) : ∀ (m : Memory) (lo : Option Nat), Memory.wfFrom lo m = true →
    Memory.wfFrom lo (Memory.erase i m) = true := by
  intro m
  induction m with
  | nil => intros; rfl
  | cons c m ih =>
    intro lo h
    rw [Memory.wfFrom_cons] at h
    simp only [Memory.erase] at ih ⊢
    by_cases hc : c.1 = i
    · rw [List.filter_cons_of_neg (by simp [hc])]
      exact Memory.wfFrom_weaken (fun k hk => Memory.above_trans h.1 (hk _ rfl)) (ih _ h.2.2.2)
    · rw [List.filter_cons_of_pos (by simp [hc]), Memory.wfFrom_cons]
      exact ⟨h.1, h.2.1, h.2.2.1, ih _ h.2.2.2⟩

theorem Memory.wfFrom_insert {i : Nat} {v : Elem} (hi : i < 256) (hv : v ≠ 0x00#8) :
    ∀ (m : Memory) (lo : Option Nat), Memory.above lo i → (∀ c ∈ m, c.1 ≠ i) → Memory.wfFrom lo m = true →
      Memory.wfFrom lo (Memory.insert i v m) = true := by
  intro m
  induction m with
  | nil =>
    intro lo hlo _ _
    exact (Memory.wfFrom_cons ..).mpr ⟨hlo, hi, hv, rfl⟩
  | cons c m ih =>
    intro lo hlo hne h
    rw [Memory.wfFrom_cons] at h
    have hc := hne c (List.mem_cons_self ..)
    unfold Memory.insert
    split
    · next hlt =>
      rw [Memory.wfFrom_cons]
      refine ⟨hlo, hi, hv, (Memory.wfFrom_cons ..).mpr ⟨?_, h.2⟩⟩
      intro b hb
      cases hb
      exact hlt
    · rw [Memory.wfFrom_cons]
      refine ⟨h.1, h.2.1, h.2.2.1, ih _ ?_ (fun d hd => hne d (List.mem_cons_of_mem _ hd)) h.2.2.2⟩
      intro b hb
      cases hb
      omega

/-- A write to one of the 256 indices keeps the canonical form. -/
theorem Memory.wf_write {m : Memory} {i : Nat} (v : Elem) (hm : Memory.wf m = true) (hi : i < 256) :
    Memory.wf (Memory.write m i v) = true := by
  unfold Memory.write
  split
  · exact Memory.wfFrom_erase i m none hm
  · next hv =>
    exact Memory.wfFrom_insert hi hv _ _ (fun _ h => nomatch h) (Memory.erase_ne m i)
      (Memory.wfFrom_erase i m none hm)

@[simp] theorem Memory.wf_zero : Memory.wf Memory.zero = true := rfl

theorem State.elem_setElem (s : State) (m : VecMem) (i : Nat) (v : Elem) (m' : VecMem) (j : Nat) :
    (s.setElem m i v).elem m' j = if m' = m ∧ j = i then v else s.elem m' j := by
  unfold State.elem
  by_cases hm : m' = m
  · subst hm; simp [Memory.read_write]
  · simp [hm, s.setElem_mem_ne m i v hm]

end Sys2Proof.Machine
end

