-- ==== Sys2Proof/Laws/Outcome.lean ====
section
/-!
SUPPORT. What each shared operation of the meanings, and the step, can do: one lemma per operation, which later
proofs cite instead of unfolding it.
-/
namespace Sys2Proof.Machine

/-- A gated command that answers a next state was dropped, or had its effect with the latch clear. -/
theorem unlessLatched_next {s t : State} {effect : State → Outcome} (h : s.unlessLatched effect = .next t) :
    (s.status.err = true ∧ t = s) ∨ (s.status.err = false ∧ effect s = .next t) := by
  unfold State.unlessLatched at h
  cases hs : s.status.err
  · simp only [hs] at h; exact .inr ⟨rfl, h⟩
  · simp only [hs, if_true, Host.Outcome.next.injEq] at h; exact .inl ⟨rfl, h.symm⟩

theorem unlessLatched_of_clear {s : State} {effect : State → Outcome} (h : s.status.err = false) :
    s.unlessLatched effect = effect s := by simp [State.unlessLatched, h]

theorem unlessLatched_of_latched {s : State} {effect : State → Outcome} (h : s.status.err = true) :
    s.unlessLatched effect = .next s := by simp [State.unlessLatched, h]

@[simp] theorem writeDest_eq (s : State) (rd : Reg) (v : Elem) : writeDest s rd v = .next (s.setReg rd v) := rfl

@[simp] theorem writeElement_eq (s : State) (m : VecMem) (idx : Index) (v : Elem) :
    writeElement s m idx v = .next (s.setElem m idx.toNat v) := rfl

@[simp] theorem sourceReg_eq (s : State) (r : Reg) : sourceReg s r = s.reg r := rfl

@[simp] theorem elementAt_eq (s : State) (m : VecMem) (idx : Index) : elementAt s m idx = s.elem m idx.toNat := rfl

@[simp] theorem vectorOperand_length (s : State) (m : VecMem) (len : Count) :
    (vectorOperand s m len).length = len.toNat := by simp [vectorOperand]

theorem vectorOperand_getD (s : State) (m : VecMem) (len : Count) {i : Nat} (h : i < len.toNat) :
    (vectorOperand s m len).getD i 0x00#8 = s.elem m i := by
  simp [vectorOperand, List.getD_eq_getElem?_getD, h]

@[simp] theorem execNop_eq (s : State) : execNop s = .next s := by
  unfold execNop State.unlessLatched
  split <;> rfl

/-- GFINV and GFDIV, EVAL: an optional value is written, or a fault is raised for want of one. -/
theorem writeOrRaise_next {s t : State} {o : Option Elem} {rd : Reg} {c : Cause} {info : BitVec 8}
    (h : (match o with | none => (Host.Outcome.next (s.raise c info) : Outcome) | some v => writeDest s rd v) = .next t) :
    (o = none ∧ t = s.raise c info) ∨ (∃ v, o = some v ∧ t = s.setReg rd v) := by
  cases o with
  | none => exact .inl ⟨rfl, by simpa using h.symm⟩
  | some v => exact .inr ⟨v, rfl, by simpa using h.symm⟩

/-- The interpolation engine raises what the checks say, or writes the value of `lagrange`. -/
theorem interpolateTo_next {rd : Reg} {xstar : Elem} {len : Count} {s t : State}
    (h : interpolateTo rd xstar len s = .next t) :
    (∃ c info, checkXs (vectorOperand s .xv len) = some (c, info) ∧ t = s.raise c info) ∨
    (checkXs (vectorOperand s .xv len) = none ∧
      ∃ v, lagrange (vectorOperand s .xv len) (vectorOperand s .yv len) xstar = some v ∧ t = s.setReg rd v) := by
  unfold interpolateTo at h
  split at h
  · next c info hc => exact .inl ⟨c, info, hc, by simpa using h.symm⟩
  · next hc =>
    split at h
    · next v hv => exact .inr ⟨hc, v, hv, by simpa using h.symm⟩
    · cases h

/-- What the checks can raise: BAD_LEN with 0 for no x-coordinate, ZERO_X or DUP_X with the index found. -/
theorem checkXs_some {xs : List Elem} {c : Cause} {info : BitVec 8} (h : checkXs xs = some (c, info)) :
    (c = .badLen ∧ info = 0x00#8 ∧ xs.length = 0) ∨
    (∃ i, firstZero xs = some i ∧ c = .zeroX ∧ info = BitVec.ofNat 8 i) ∨
    (∃ j, firstZero xs = none ∧ firstDuplicate xs = some j ∧ c = .dupX ∧ info = BitVec.ofNat 8 j) := by
  unfold checkXs at h
  split at h
  · next hl => simp only [Option.some.injEq, Prod.mk.injEq] at h; exact .inl ⟨h.1.symm, h.2.symm, hl⟩
  · split at h
    · next i hi => simp only [Option.some.injEq, Prod.mk.injEq] at h; exact .inr (.inl ⟨i, hi, h.1.symm, h.2.symm⟩)
    · next hz =>
      split at h
      · next j hj =>
        simp only [Option.some.injEq, Prod.mk.injEq] at h
        exact .inr (.inr ⟨j, hz, hj, h.1.symm, h.2.symm⟩)
      · cases h

theorem checkXs_none {xs : List Elem} (h : checkXs xs = none) :
    xs.length ≠ 0 ∧ firstZero xs = none ∧ firstDuplicate xs = none := by
  unfold checkXs at h
  split at h
  · cases h
  · next hl =>
    split at h
    · cases h
    · next hz =>
      split at h
      · cases h
      · next hd => exact ⟨hl, hz, hd⟩

/-- Everything accepting a word can do: run one of the two exact words under the latch, drop it, raise
ILLEGAL_CMD, or run the command it decodes to. -/
theorem acceptWord_cases (w : Word) (s : State) :
    (s.status.err = true ∧ w = clrerrWord ∧ acceptWord w s = .next s.clearError) ∨
    (s.status.err = true ∧ w = wipeWord ∧ acceptWord w s = .next s.wipe) ∨
    (s.status.err = true ∧ w ≠ clrerrWord ∧ w ≠ wipeWord ∧ acceptWord w s = .next s) ∨
    (s.status.err = false ∧ (∃ e, decode w = .error e) ∧
      acceptWord w s = .next (s.raise .illegalCmd (fieldsOfWord w).op)) ∨
    (s.status.err = false ∧ ∃ i, decode w = .ok i ∧ acceptWord w s = exec i s) := by
  unfold acceptWord
  cases hs : s.status.err
  · cases hd : decode w with
    | error e => exact .inr (.inr (.inr (.inl ⟨rfl, ⟨e, rfl⟩, by simp [raiseIllegal]⟩)))
    | ok i => exact .inr (.inr (.inr (.inr ⟨rfl, i, rfl, by simp⟩)))
  · by_cases h1 : w = clrerrWord
    · exact .inl ⟨rfl, h1, by simp [h1, exec, execClrerr]⟩
    · by_cases h2 : w = wipeWord
      · exact .inr (.inl ⟨rfl, h2, by simp [h2, exec, execWipe, show wipeWord ≠ clrerrWord by decide]⟩)
      · exact .inr (.inr (.inl ⟨rfl, h1, h2, by simp [h1, h2]⟩))

/-- Everything one step can do: stay idle, reset the block, or accept the host's next word. -/
theorem step_cases (s : State) :
    (s.host = [] ∧ step s = .next s) ∨
    (∃ rest, s.host = .reset :: rest ∧ step s = .next (State.resetBlock { s with host := rest })) ∨
    (∃ w rest, s.host = .command w :: rest ∧ step s = acceptWord w { s with host := rest }) := by
  unfold step
  cases h : s.host with
  | nil => exact .inl ⟨rfl, rfl⟩
  | cons inp rest =>
    cases inp with
    | command w => exact .inr (.inr ⟨w, rest, rfl, rfl⟩)
    | reset => exact .inr (.inl ⟨rest, rfl, rfl⟩)

end Sys2Proof.Machine
end

