-- ==== Sys2Proof/Laws/Exec.lean ====
section
/-!
SUPPORT. What a command can do, said once for all of them: the shape of every next state `exec` can answer.
-/
namespace Sys2Proof.Machine

theorem firstZero_lt {xs : List Elem} {i : Nat} (h : firstZero xs = some i) : i < xs.length := by
  simpa using List.mem_of_find?_eq_some h

theorem firstDuplicate_lt {xs : List Elem} {j : Nat} (h : firstDuplicate xs = some j) : j < xs.length := by
  simpa using List.mem_of_find?_eq_some h

theorem firstDuplicate_pos {xs : List Elem} {j : Nat} (h : firstDuplicate xs = some j) : 0 < j := by
  have := List.find?_some h
  rcases Nat.eq_zero_or_pos j with rfl | hj
  · simp at this
  · exact hj

/-- The status a command can leave by raising a fault is legal and names a cause. -/
def RaisesLegally (c : Cause) (info : BitVec 8) : Prop :=
  c ≠ .none ∧ Status.legal { err := true, cause := c, einfo := info } = true

theorem raisesLegally_invZero (r : Reg) : RaisesLegally .invZero (regInfo r) := by
  refine ⟨by simp, ?_⟩
  simp [Status.legal, regInfo]
  omega

theorem raisesLegally_badLen : RaisesLegally .badLen 0x00#8 := ⟨by simp, rfl⟩

theorem raisesLegally_checkXs {s : State} {len : Count} {c : Cause} {info : BitVec 8}
    (h : checkXs (vectorOperand s .xv len) = some (c, info)) : RaisesLegally c info := by
  have hlen := len.isLt
  rcases checkXs_some h with ⟨rfl, rfl, _⟩ | ⟨i, hi, rfl, rfl⟩ | ⟨j, _, hj, rfl, rfl⟩
  · exact raisesLegally_badLen
  · have := firstZero_lt hi
    rw [vectorOperand_length] at this
    refine ⟨by simp, ?_⟩
    simp [Status.legal, Config.maxLen]
    omega
  · have h1 := firstDuplicate_lt hj
    have h2 := firstDuplicate_pos hj
    rw [vectorOperand_length] at h1
    refine ⟨by simp, ?_⟩
    simp [Status.legal, Config.maxLen]
    omega

/-- The next states a command can lead to: itself (dropped, or NOP), its destination register or element written,
a fault raised, STATUS cleared (CLRERR), or everything wiped (WIPE). -/
inductive ExecEffect (i : Instr) (s t : State) : Prop where
  | same (h : t = s)
  | reg (hc : s.status.err = false) (rd : Reg) (v : Elem) (hd : destReg i = some rd) (h : t = s.setReg rd v)
  | elem (hc : s.status.err = false) (m : VecMem) (k : Nat) (v : Elem) (hd : destElem i = some (m, k)) (hk : k < 256)
      (h : t = s.setElem m k v)
  | raise (hc : s.status.err = false) (c : Cause) (info : BitVec 8) (hl : RaisesLegally c info) (h : t = s.raise c info)
  | clear (hi : i = .clrerr) (h : t = s.clearError)
  | wipe (hi : i = .wipe) (h : t = s.wipe)

theorem ExecEffect.of_gated {i : Instr} {s t : State} {effect : State → Outcome}
    (h : s.unlessLatched effect = .next t)
    (k : s.status.err = false → effect s = .next t → ExecEffect i s t) : ExecEffect i s t := by
  rcases unlessLatched_next h with ⟨_, ht⟩ | ⟨hc, he⟩
  · exact .same ht
  · exact k hc he

theorem ExecEffect.of_writeDest {i : Instr} {s t : State} {rd : Reg} {v : Elem} (hd : destReg i = some rd)
    (hc : s.status.err = false) (h : writeDest s rd v = .next t) : ExecEffect i s t :=
  .reg hc rd v hd (by simpa using h.symm)

theorem ExecEffect.of_writeElement {i : Instr} {s t : State} {m : VecMem} {idx : Index} {v : Elem}
    (hd : destElem i = some (m, idx.toNat)) (hc : s.status.err = false) (h : writeElement s m idx v = .next t) :
    ExecEffect i s t :=
  .elem hc m idx.toNat v hd idx.isLt (by simpa using h.symm)

theorem ExecEffect.of_writeOrRaise {i : Instr} {s t : State} {o : Option Elem} {rd : Reg} {c : Cause}
    {info : BitVec 8} (hd : destReg i = some rd) (hl : RaisesLegally c info) (hc : s.status.err = false)
    (h : (match o with | none => (Host.Outcome.next (s.raise c info) : Outcome) | some v => writeDest s rd v) = .next t) :
    ExecEffect i s t := by
  rcases writeOrRaise_next h with ⟨_, ht⟩ | ⟨v, _, ht⟩
  · exact .raise hc c info hl ht
  · exact .reg hc rd v hd ht

theorem ExecEffect.of_interpolateTo {i : Instr} {s t : State} {rd : Reg} {xstar : Elem} {len : Count}
    (hd : destReg i = some rd) (hc : s.status.err = false) (h : interpolateTo rd xstar len s = .next t) :
    ExecEffect i s t := by
  rcases interpolateTo_next h with ⟨c, info, hx, ht⟩ | ⟨_, v, _, ht⟩
  · exact .raise hc c info (raisesLegally_checkXs hx) ht
  · exact .reg hc rd v hd ht

/-- Everything a command can do when it answers a next state. -/
theorem exec_next {i : Instr} {s t : State} (h : exec i s = .next t) : ExecEffect i s t := by
  cases i with
  | gfadd rd rs1 rs2 => unfold exec execGfadd at h; exact .of_gated h fun hc he => .of_writeDest rfl hc he
  | gfmul rd rs1 rs2 => unfold exec execGfmul at h; exact .of_gated h fun hc he => .of_writeDest rfl hc he
  | gfinv rd rs1 =>
    unfold exec execGfinv at h
    exact .of_gated h fun hc he => .of_writeOrRaise rfl (raisesLegally_invZero rs1) hc he
  | gfdiv rd rs1 rs2 =>
    unfold exec execGfdiv at h
    exact .of_gated h fun hc he => .of_writeOrRaise rfl (raisesLegally_invZero rs2) hc he
  | ldi rd imm8 => unfold exec execLdi at h; exact .of_gated h fun hc he => .of_writeDest rfl hc he
  | ldc rd idx => unfold exec execLdc at h; exact .of_gated h fun hc he => .of_writeDest rfl hc he
  | ldx rd idx => unfold exec execLdx at h; exact .of_gated h fun hc he => .of_writeDest rfl hc he
  | ldy rd idx => unfold exec execLdy at h; exact .of_gated h fun hc he => .of_writeDest rfl hc he
  | stc idx rs => unfold exec execStc at h; exact .of_gated h fun hc he => .of_writeElement rfl hc he
  | stx idx rs => unfold exec execStx at h; exact .of_gated h fun hc he => .of_writeElement rfl hc he
  | sty idx rs => unfold exec execSty at h; exact .of_gated h fun hc he => .of_writeElement rfl hc he
  | setc idx imm8 => unfold exec execSetc at h; exact .of_gated h fun hc he => .of_writeElement rfl hc he
  | setx idx imm8 => unfold exec execSetx at h; exact .of_gated h fun hc he => .of_writeElement rfl hc he
  | sety idx imm8 => unfold exec execSety at h; exact .of_gated h fun hc he => .of_writeElement rfl hc he
  | eval rd rs len =>
    unfold exec execEval at h
    exact .of_gated h fun hc he => .of_writeOrRaise rfl raisesLegally_badLen hc he
  | interp0 rd len => unfold exec execInterp0 at h; exact .of_gated h fun hc he => .of_interpolateTo rfl hc he
  | interp rd rs len => unfold exec execInterp at h; exact .of_gated h fun hc he => .of_interpolateTo rfl hc he
  | nop => exact .same (by simpa [exec] using h.symm)
  | clrerr => exact .clear rfl (by simpa [exec, execClrerr] using h.symm)
  | wipe => exact .wipe rfl (by simpa [exec, execWipe] using h.symm)

end Sys2Proof.Machine
end

