-- ==== Sys2Proof/Laws/PerInstr.lean ====
section
/-!
SUPPORT. Facts about every command as syntax, one lemma per constructor (LAWS.json "per_instruction").
-/

/-- The fields the encoder gives a command pass every check of 30_encoding.md R65. -/
def Sys2Proof.Laws.WellFormedFields.Statement (i : Sys2Proof.Instr) : Prop :=
  (Sys2Proof.fieldsOfInstr i).wellFormed = true

namespace Sys2Proof

theorem fieldOfReg_inRange (r : Reg) : (fieldOfReg r).toNat ≤ 7 := by
  simp [fieldOfReg]
  omega

namespace Laws.WellFormedFields

/-- The checks on the fields of one command, once its format is known. -/
theorem of_format {x : Fields} {f : Format} (hf : formatOf x.op = some f) (hr : ∀ r ∈ f.regFields x, r.toNat ≤ 7)
    (hz : ∀ z ∈ f.zeroFields x, z = 0x00#8) : x.wellFormed = true := by
  simp only [Fields.wellFormed, hf, Fields.regsInRange, Fields.zerosZero, Bool.and_eq_true, List.all_eq_true,
    decide_eq_true_eq, beq_iff_eq]
  exact ⟨hr, hz⟩

theorem gfadd (rd rs1 rs2 : Reg) : Statement (.gfadd rd rs1 rs2) :=
  of_format (f := .r3) (by simp [fieldsOfInstr, Instr.opcode, formatOf])
    (by simp [Format.regFields, fieldsOfInstr, fieldOfReg_inRange]) (by simp [Format.zeroFields])
theorem gfmul (rd rs1 rs2 : Reg) : Statement (.gfmul rd rs1 rs2) :=
  of_format (f := .r3) (by simp [fieldsOfInstr, Instr.opcode, formatOf])
    (by simp [Format.regFields, fieldsOfInstr, fieldOfReg_inRange]) (by simp [Format.zeroFields])
theorem gfinv (rd rs1 : Reg) : Statement (.gfinv rd rs1) :=
  of_format (f := .r2) (by simp [fieldsOfInstr, Instr.opcode, formatOf])
    (by simp [Format.regFields, fieldsOfInstr, fieldOfReg_inRange]) (by simp [Format.zeroFields, fieldsOfInstr])
theorem gfdiv (rd rs1 rs2 : Reg) : Statement (.gfdiv rd rs1 rs2) :=
  of_format (f := .r3) (by simp [fieldsOfInstr, Instr.opcode, formatOf])
    (by simp [Format.regFields, fieldsOfInstr, fieldOfReg_inRange]) (by simp [Format.zeroFields])
theorem ldi (rd : Reg) (imm8 : Elem) : Statement (.ldi rd imm8) :=
  of_format (f := .ri) (by simp [fieldsOfInstr, Instr.opcode, formatOf])
    (by simp [Format.regFields, fieldsOfInstr, fieldOfReg_inRange]) (by simp [Format.zeroFields, fieldsOfInstr])
theorem ldc (rd : Reg) (idx : Index) : Statement (.ldc rd idx) :=
  of_format (f := .rl) (by simp [fieldsOfInstr, Instr.opcode, formatOf])
    (by simp [Format.regFields, fieldsOfInstr, fieldOfReg_inRange]) (by simp [Format.zeroFields, fieldsOfInstr])
theorem ldx (rd : Reg) (idx : Index) : Statement (.ldx rd idx) :=
  of_format (f := .rl) (by simp [fieldsOfInstr, Instr.opcode, formatOf])
    (by simp [Format.regFields, fieldsOfInstr, fieldOfReg_inRange]) (by simp [Format.zeroFields, fieldsOfInstr])
theorem ldy (rd : Reg) (idx : Index) : Statement (.ldy rd idx) :=
  of_format (f := .rl) (by simp [fieldsOfInstr, Instr.opcode, formatOf])
    (by simp [Format.regFields, fieldsOfInstr, fieldOfReg_inRange]) (by simp [Format.zeroFields, fieldsOfInstr])
theorem stc (idx : Index) (rs : Reg) : Statement (.stc idx rs) :=
  of_format (f := .sr) (by simp [fieldsOfInstr, Instr.opcode, formatOf])
    (by simp [Format.regFields, fieldsOfInstr, fieldOfReg_inRange]) (by simp [Format.zeroFields, fieldsOfInstr])
theorem stx (idx : Index) (rs : Reg) : Statement (.stx idx rs) :=
  of_format (f := .sr) (by simp [fieldsOfInstr, Instr.opcode, formatOf])
    (by simp [Format.regFields, fieldsOfInstr, fieldOfReg_inRange]) (by simp [Format.zeroFields, fieldsOfInstr])
theorem sty (idx : Index) (rs : Reg) : Statement (.sty idx rs) :=
  of_format (f := .sr) (by simp [fieldsOfInstr, Instr.opcode, formatOf])
    (by simp [Format.regFields, fieldsOfInstr, fieldOfReg_inRange]) (by simp [Format.zeroFields, fieldsOfInstr])
theorem setc (idx : Index) (imm8 : Elem) : Statement (.setc idx imm8) :=
  of_format (f := .si) (by simp [fieldsOfInstr, Instr.opcode, formatOf]) (by simp [Format.regFields])
    (by simp [Format.zeroFields, fieldsOfInstr])
theorem setx (idx : Index) (imm8 : Elem) : Statement (.setx idx imm8) :=
  of_format (f := .si) (by simp [fieldsOfInstr, Instr.opcode, formatOf]) (by simp [Format.regFields])
    (by simp [Format.zeroFields, fieldsOfInstr])
theorem sety (idx : Index) (imm8 : Elem) : Statement (.sety idx imm8) :=
  of_format (f := .si) (by simp [fieldsOfInstr, Instr.opcode, formatOf]) (by simp [Format.regFields])
    (by simp [Format.zeroFields, fieldsOfInstr])
theorem eval (rd rs : Reg) (len : Count) : Statement (.eval rd rs len) :=
  of_format (f := .rv) (by simp [fieldsOfInstr, Instr.opcode, formatOf])
    (by simp [Format.regFields, fieldsOfInstr, fieldOfReg_inRange]) (by simp [Format.zeroFields])
theorem interp0 (rd : Reg) (len : Count) : Statement (.interp0 rd len) :=
  of_format (f := .r0v) (by simp [fieldsOfInstr, Instr.opcode, formatOf])
    (by simp [Format.regFields, fieldsOfInstr, fieldOfReg_inRange]) (by simp [Format.zeroFields, fieldsOfInstr])
theorem interp (rd rs : Reg) (len : Count) : Statement (.interp rd rs len) :=
  of_format (f := .rv) (by simp [fieldsOfInstr, Instr.opcode, formatOf])
    (by simp [Format.regFields, fieldsOfInstr, fieldOfReg_inRange]) (by simp [Format.zeroFields])
theorem nop : Statement .nop :=
  of_format (f := .z) (by simp [fieldsOfInstr, Instr.opcode, formatOf]) (by simp [Format.regFields])
    (by simp [Format.zeroFields, fieldsOfInstr])
theorem clrerr : Statement .clrerr :=
  of_format (f := .z) (by simp [fieldsOfInstr, Instr.opcode, formatOf]) (by simp [Format.regFields])
    (by simp [Format.zeroFields, fieldsOfInstr])
theorem wipe : Statement .wipe :=
  of_format (f := .z) (by simp [fieldsOfInstr, Instr.opcode, formatOf]) (by simp [Format.regFields])
    (by simp [Format.zeroFields, fieldsOfInstr])

end Laws.WellFormedFields

/-- Every command's fields pass the checks: no term of `Instr` is ill-formed. -/
theorem instr_fields_wellFormed (i : Instr) : (fieldsOfInstr i).wellFormed = true := by
  cases i with
  | gfadd rd rs1 rs2 => exact Laws.WellFormedFields.gfadd rd rs1 rs2
  | gfmul rd rs1 rs2 => exact Laws.WellFormedFields.gfmul rd rs1 rs2
  | gfinv rd rs1 => exact Laws.WellFormedFields.gfinv rd rs1
  | gfdiv rd rs1 rs2 => exact Laws.WellFormedFields.gfdiv rd rs1 rs2
  | ldi rd imm8 => exact Laws.WellFormedFields.ldi rd imm8
  | ldc rd idx => exact Laws.WellFormedFields.ldc rd idx
  | ldx rd idx => exact Laws.WellFormedFields.ldx rd idx
  | ldy rd idx => exact Laws.WellFormedFields.ldy rd idx
  | stc idx rs => exact Laws.WellFormedFields.stc idx rs
  | stx idx rs => exact Laws.WellFormedFields.stx idx rs
  | sty idx rs => exact Laws.WellFormedFields.sty idx rs
  | setc idx imm8 => exact Laws.WellFormedFields.setc idx imm8
  | setx idx imm8 => exact Laws.WellFormedFields.setx idx imm8
  | sety idx imm8 => exact Laws.WellFormedFields.sety idx imm8
  | eval rd rs len => exact Laws.WellFormedFields.eval rd rs len
  | interp0 rd len => exact Laws.WellFormedFields.interp0 rd len
  | interp rd rs len => exact Laws.WellFormedFields.interp rd rs len
  | nop => exact Laws.WellFormedFields.nop
  | clrerr => exact Laws.WellFormedFields.clrerr
  | wipe => exact Laws.WellFormedFields.wipe

end Sys2Proof
end

