-- ==== Sys2Proof/Tests/Slice0.lean ====
section
/-!
SUPPORT. The model's own tests. Expected results are those of spec/95_test_vectors.md (its section named beside each
group); then, for every statement with hypotheses, witnesses that meet them.
-/
namespace Sys2Proof.Machine.Tests
open Sys2Proof Sys2Proof.Machine

/-! Helpers. -/

/-- The next state of a meaning, if it answers one. -/
def nextOf (o : Outcome) : Option State :=
  match o with
  | .next t => some t
  | _       => none

/-- The reset state with some registers and elements given. -/
def stateWith (regs : List (Reg × Elem)) (elems : List (VecMem × Nat × Elem)) : State :=
  elems.foldl (fun s e => s.setElem e.1 e.2.1 e.2.2) (regs.foldl (fun s r => s.setReg r.1 r.2) State.reset)

/-- The value of a register after a command. -/
def regAfter (i : Instr) (s : State) (r : Reg) : Option Elem := (nextOf (exec i s)).map (State.reg · r)

/-- The value of an element after a command. -/
def elemAfter (i : Instr) (s : State) (m : VecMem) (k : Nat) : Option Elem := (nextOf (exec i s)).map (State.elem · m k)

/-- STATUS as read after a command. -/
def statusAfter (i : Instr) (s : State) : Option Word := (nextOf (exec i s)).map (·.status.word)

/-- A latched state: STATUS = 0x00000251 (95_test_vectors.md section 7). -/
def latched : State := (stateWith [(0, 0x11#8)] [(.xv, 0, 0x05#8)]).raise .dupX 0x02#8

/-- P2 of 95_test_vectors.md section 8 before its command 16. -/
def p2 : State :=
  stateWith [(0, 0x32#8), (3, 0x07#8)]
    [(.cv, 0, 0x74#8), (.cv, 1, 0xA3#8), (.cv, 2, 0x5C#8), (.xv, 0, 0x32#8), (.xv, 1, 0x01#8), (.xv, 2, 0x84#8),
      (.yv, 0, 0x9C#8), (.yv, 1, 0x8B#8), (.yv, 2, 0xC5#8)]

/-- The line of 95_test_vectors.md section 6: coefficients 01 04, points (01, 05), (02, 09) and, on the same line,
(04, 11). -/
def line : State :=
  stateWith [] [(.cv, 0, 0x01#8), (.cv, 1, 0x04#8), (.xv, 0, 0x01#8), (.xv, 1, 0x02#8), (.xv, 2, 0x04#8),
    (.yv, 0, 0x05#8), (.yv, 1, 0x09#8), (.yv, 2, 0x11#8)]

/-- The x-coordinates 05 09 05 of P4. -/
def dup : State := stateWith [] [(.xv, 0, 0x05#8), (.xv, 1, 0x09#8), (.xv, 2, 0x05#8)]

/-! WellFormed: an ill-formed term for each check (30_encoding.md R65 (a), (b), (c)), which the check refuses. -/

theorem test_wf_opcode : Fields.opcodeDefined ⟨0x05#8, 0x00#8, 0x00#8, 0x00#8⟩ = false := by decide
theorem test_wf_register : Fields.regsInRange .r3 ⟨0x01#8, 0x00#8, 0x08#8, 0x00#8⟩ = false := by decide
theorem test_wf_zero : Fields.zerosZero .r2 ⟨0x03#8, 0x00#8, 0x00#8, 0x01#8⟩ = false := by decide
theorem test_wf_refuses :
    Fields.wellFormed ⟨0x05#8, 0x00#8, 0x00#8, 0x00#8⟩ = false ∧
    Fields.wellFormed ⟨0x01#8, 0x00#8, 0x08#8, 0x00#8⟩ = false ∧
    Fields.wellFormed ⟨0x03#8, 0x00#8, 0x00#8, 0x01#8⟩ = false ∧
    Fields.wellFormed ⟨0x01#8, 0x07#8, 0x07#8, 0x07#8⟩ = true := by decide

/-! Decoding: a word for every constructor (95_test_vectors.md sections 4 and 8; those not in it are written out from
30_encoding.md R61 and R63). -/

theorem test_decode_arithmetic :
    decode 0x01030001#32 = .ok (.gfadd 3 0 1) ∧ decode 0x02020001#32 = .ok (.gfmul 2 0 1) ∧
    decode 0x03040000#32 = .ok (.gfinv 4 0) ∧ decode 0x04060201#32 = .ok (.gfdiv 6 2 1) := by decide
theorem test_decode_loads :
    decode 0x1007FF00#32 = .ok (.ldi 7 0xFF#8) ∧ decode 0x1107FF00#32 = .ok (.ldc 7 0xFF#8) ∧
    decode 0x12000200#32 = .ok (.ldx 0 0x02#8) ∧ decode 0x13050300#32 = .ok (.ldy 5 0x03#8) := by decide
theorem test_decode_stores :
    decode 0x1400FF07#32 = .ok (.stc 0xFF#8 7) ∧ decode 0x15000203#32 = .ok (.stx 0x02#8 3) ∧
    decode 0x16000201#32 = .ok (.sty 0x02#8 1) := by decide
theorem test_decode_sets :
    decode 0x170001A3#32 = .ok (.setc 0x01#8 0xA3#8) ∧ decode 0x18000284#32 = .ok (.setx 0x02#8 0x84#8) ∧
    decode 0x190001A2#32 = .ok (.sety 0x01#8 0xA2#8) := by decide
theorem test_decode_vector :
    decode 0x20050303#32 = .ok (.eval 5 3 0x03#8) ∧ decode 0x30020003#32 = .ok (.interp0 2 0x03#8) ∧
    decode 0x31040303#32 = .ok (.interp 4 3 0x03#8) := by decide
theorem test_decode_system :
    decode 0x40000000#32 = .ok .nop ∧ decode 0x41000000#32 = .ok .clrerr ∧ decode 0x42000000#32 = .ok .wipe := by
  decide
theorem test_decode_illegal_opcodes :
    [0x00000000#32, 0xFFFFFFFF#32, 0x80000000#32, 0x05000000#32, 0x1A000000#32, 0x21000000#32, 0x32000000#32,
      0x43000000#32].all (fun w => decode w == .error .unknownOpcode) = true := by decide
theorem test_decode_illegal_fields :
    [0x01080000#32, 0x01000800#32, 0x01000008#32, 0x10080000#32, 0x1400FF08#32, 0x20080003#32, 0x30080003#32,
      0x31070803#32].all (fun w => decode w == .error .registerAbove7) = true ∧
    [0x03000001#32, 0x1007FF01#32, 0x14010000#32, 0x17010000#32, 0x30000103#32, 0x40000001#32, 0x41000100#32,
      0x42010000#32].all (fun w => decode w == .error .fieldNotZero) = true := by decide
theorem test_encode :
    encode (.gfdiv 6 2 1) = 0x04060201#32 ∧ encode (.sty 0x02#8 1) = 0x16000201#32 ∧
    encode (.interp 4 3 0x03#8) = 0x31040303#32 := by decide
theorem test_decodeTableWord : decodeTableWord 32 0x20050303 = some (.eval 5 3 0x03#8) := by decide

/-! The field functions (95_test_vectors.md sections 2 and 3). -/

theorem test_gfMul :
    gfMul 0x57#8 0x83#8 = 0xC1#8 ∧ gfMul 0x57#8 0x13#8 = 0xFE#8 ∧ gfMul 0x02#8 0x80#8 = 0x1B#8 := by decide +kernel
theorem test_gfMulSerial : gfMulSerial 0x57#8 0x83#8 = 0xC1#8 ∧ gfMulSerial 0x53#8 0xCA#8 = 0x01#8 := by decide +kernel
theorem test_gfInv :
    gfInv 0x53#8 = some 0xCA#8 ∧ gfInv 0x02#8 = some 0x8D#8 ∧ gfInv 0xFF#8 = some 0x1C#8 ∧ gfInv 0x00#8 = none := by
  decide +kernel

/-! One step of each command (95_test_vectors.md sections 3, 5, 6, 7 and 8). -/

theorem test_gfadd : regAfter (.gfadd 3 0 1) (stateWith [(0, 0x57#8), (1, 0x83#8)] []) 3 = some 0xD4#8 := by decide
theorem test_gfadd_same : regAfter (.gfadd 7 6 0) (stateWith [(0, 0x57#8), (6, 0x57#8)] []) 7 = some 0x00#8 := by decide
theorem test_gfmul : regAfter (.gfmul 2 0 1) (stateWith [(0, 0x57#8), (1, 0x83#8)] []) 2 = some 0xC1#8 := by
  decide +kernel
theorem test_gfmul_dest_is_source :
    regAfter (.gfmul 1 1 0) (stateWith [(0, 0x32#8), (1, 0x5C#8)] []) 1 = some 0x7A#8 := by decide +kernel
theorem test_gfinv : regAfter (.gfinv 4 0) (stateWith [(0, 0x57#8)] []) 4 = some 0xBF#8 := by decide +kernel
theorem test_gfinv_zero :
    statusAfter (.gfinv 2 3) (stateWith [(2, 0xAA#8)] []) = some 0x00000321#32 ∧
    regAfter (.gfinv 2 3) (stateWith [(2, 0xAA#8)] []) 2 = some 0xAA#8 := by decide
theorem test_gfdiv : regAfter (.gfdiv 6 2 1) (stateWith [(2, 0xC1#8), (1, 0x83#8)] []) 6 = some 0x57#8 := by
  decide +kernel
theorem test_gfdiv_zero : statusAfter (.gfdiv 6 5 3) (stateWith [(5, 0x09#8)] []) = some 0x00000321#32 := by decide
theorem test_ldi : regAfter (.ldi 0 0x57#8) State.reset 0 = some 0x57#8 := by decide
theorem test_ldi_dropped : nextOf (exec (.ldi 1 0xAA#8) latched) = some latched := by decide
theorem test_ldc : regAfter (.ldc 6 0x00#8) p2 6 = some 0x74#8 := by decide
theorem test_ldx : regAfter (.ldx 0 0x02#8) p2 0 = some 0x84#8 := by decide
theorem test_ldy : regAfter (.ldy 0 0x01#8) p2 0 = some 0x8B#8 := by decide
theorem test_stc : elemAfter (.stc 0xFF#8 7) (stateWith [(7, 0x3C#8)] []) .cv 255 = some 0x3C#8 := by decide
theorem test_stx : elemAfter (.stx 0x00#8 3) p2 .xv 0 = some 0x07#8 := by decide
theorem test_sty : elemAfter (.sty 0x00#8 1) (stateWith [(1, 0x9C#8)] []) .yv 0 = some 0x9C#8 := by decide
theorem test_setc : elemAfter (.setc 0x01#8 0xA3#8) State.reset .cv 1 = some 0xA3#8 := by decide
theorem test_setx : elemAfter (.setx 0x02#8 0x00#8) dup .xv 2 = some 0x00#8 := by decide
theorem test_sety : elemAfter (.sety 0x01#8 0x04#8) p2 .yv 1 = some 0x04#8 := by decide
theorem test_eval : regAfter (.eval 1 0 0x03#8) p2 1 = some 0x9C#8 := by decide +kernel
theorem test_eval_no_coefficient : statusAfter (.eval 0 1 0x00#8) p2 = some 0x00000031#32 := by decide
theorem test_interp0 : regAfter (.interp0 2 0x03#8) p2 2 = some 0x74#8 := by decide +kernel
theorem test_interp0_duplicate : statusAfter (.interp0 0 0x03#8) dup = some 0x00000251#32 := by decide
theorem test_interp : regAfter (.interp 4 3 0x03#8) p2 4 = some 0xB0#8 := by decide +kernel
theorem test_interp_zero_before_duplicate :
    statusAfter (.interp 0 1 0x03#8) (stateWith [] [(.xv, 0, 0x05#8), (.xv, 2, 0x05#8)]) = some 0x00000141#32 := by
  decide
theorem test_nop : nextOf (exec .nop p2) = some p2 := by decide
theorem test_clrerr : (nextOf (exec .clrerr latched)).map (·.status.word) = some 0x00000000#32 := by decide
theorem test_wipe_under_latch :
    statusAfter .wipe latched = some 0x00000251#32 ∧ regAfter .wipe latched 0 = some 0x00#8 ∧
    elemAfter .wipe latched .xv 0 = some 0x00#8 := by decide
theorem test_latch_drops_words :
    [0x1001AA00#32, 0x05000000#32, 0x40000000#32, 0x41000100#32, 0x30000003#32].all
      (fun w => nextOf (acceptWord w latched) == some latched) = true := by decide
theorem test_illegal_words :
    [(0x05000000#32, 0x00000511#32), (0x01080000#32, 0x00000111#32), (0x03000001#32, 0x00000311#32),
      (0x00000000#32, 0x00000011#32), (0xFFFFFFFF#32, 0x0000FF11#32)].all
      (fun p => (nextOf (acceptWord p.1 State.reset)).map (·.status.word) == some p.2) = true := by decide
theorem test_first_step_from_reset :
    (nextOf (step (State.reset.withFetchWord 32 0x1007FF00))).map (State.reg · 7) = some 0xFF#8 := by decide
theorem test_read_port :
    (stateWith [(2, 0xC1#8)] []).readPort 2#4 = 0x000000C1#32 ∧ latched.readPort 8#4 = 0x00000251#32 ∧
    latched.readPort 9#4 = 0x00000000#32 := by decide

/-! Assembly text (30_encoding.md R68, R69; the lines of section 8). -/

theorem test_assemble :
    assembleProgram ["EVAL F1, F0, 3".toList, "SETX 2, 132 ; a comment".toList, "LDI F0, 0x57".toList] =
      some [0x20010003#32, 0x18000284#32, 0x10005700#32] := by decide +kernel
theorem test_assemble_pseudo :
    assembleLine "MOV F1, F2".toList = some [.ldi 1 0x00#8, .gfadd 1 1 2] ∧ assembleLine "MOV F1, F1".toList = none := by
  decide +kernel

/-! Witnesses: for every statement with hypotheses, states and operands that meet all of them. -/

/-- XV[0..254] = 01, 02, … FF, the 255 points of 95_test_vectors.md section 6. -/
def points255 : State := { State.reset with xv := (List.range 255).map fun i => (i, BitVec.ofNat 8 (i + 1)) }

/-- XV[0..253] = 01, 02, … FE and XV[254] = 01 again: the last index a repeat can have. -/
def repeat254 : State :=
  { State.reset with xv := (List.range 255).map fun i => (i, if i = 254 then 0x01#8 else BitVec.ofNat 8 (i + 1)) }

theorem points255_elem : ∀ i, i < 255 → points255.elem .xv i = BitVec.ofNat 8 (i + 1) := by decide +kernel
theorem repeat254_elem :
    ∀ i, i < 255 → repeat254.elem .xv i = if i = 254 then 0x01#8 else BitVec.ofNat 8 (i + 1) := by decide +kernel

theorem witness_points255 : DistinctX points255 255 := by
  refine ⟨fun i hi => ?_, fun j hj h => ?_⟩
  · rw [points255_elem i hi]; bv_omega
  · obtain ⟨i, hij, h⟩ := h
    rw [points255_elem i (by omega), points255_elem j hj] at h
    have := congrArg BitVec.toNat h
    simp only [BitVec.toNat_ofNat] at this
    omega

theorem witness_repeat254 : FirstDupX repeat254 255 254 := by
  refine ⟨fun i hi => ?_, by omega, ⟨0, by omega, by rw [repeat254_elem, repeat254_elem] <;> decide⟩, fun k hk h => ?_⟩
  · rw [repeat254_elem i hi]; split <;> bv_omega
  · obtain ⟨i, hik, h⟩ := h
    rw [repeat254_elem i (by omega), repeat254_elem k (by omega), if_neg (by omega), if_neg (by omega)] at h
    have := congrArg BitVec.toNat h
    simp only [BitVec.toNat_ofNat] at this
    omega

/-- The latch clear and the latch set, which most statements assume one of. -/
theorem witness_latch : State.reset.status.err = false ∧ latched.status.err = true := by decide

/-- Bytes that make a field illegal, at the boundary: a register number 8 or 255, a field that should be zero. -/
theorem witness_illegal_fields :
    7 < (0x08#8).toNat ∧ 7 < (0xFF#8).toNat ∧ ¬ 7 < (0x07#8).toNat ∧ 0x01#8 ≠ 0x00#8 ∧ 0x80#8 ≠ 0x00#8 := by decide

theorem witness_EncodeOfDecodeIsTheWord : decode 0x310707FF#32 = .ok (.interp 7 7 0xFF#8) := by decide
theorem witness_IllegalInExactlyThreeWays :
    (decode 0x05000000#32).toOption = none ∧ (decode 0x01080000#32).toOption = none ∧
    (decode 0x03000001#32).toOption = none ∧ latched.status.err = true := by decide
theorem witness_MaskAndMatchDecide :
    formatOf 0x30#8 = some .r0v ∧ decode 0x300700FF#32 = .ok (.interp0 7 0xFF#8) := by decide
theorem witness_field_nonzero : 0x01#8 ≠ 0x00#8 ∧ 0xFF#8 ≠ 0x00#8 := by decide
theorem witness_InverterChainComputesPowers : 0 ≤ 6 ∧ 6 ≤ 6 := by decide
theorem witness_GfinvFollowsItsRule :
    State.reset.status.err = false ∧ State.reset.reg 7 = 0x00#8 ∧ (stateWith [(7, 0xFF#8)] []).reg 7 ≠ 0x00#8 ∧
    (stateWith [(7, 0xFF#8)] []).status.err = false := by decide
theorem witness_GfmulFollowsItsRule :
    State.reset.status.err = false ∧ State.reset.reg 7 = 0x00#8 ∧ (stateWith [(7, 0x01#8)] []).reg 7 = 0x01#8 ∧
    (stateWith [(7, 0x01#8)] []).status.err = false := by decide
theorem witness_GfdivFollowsItsRule :
    (stateWith [(1, 0x57#8)] []).status.err = false ∧ (stateWith [(1, 0x57#8)] []).reg 7 = 0x00#8 ∧
    (stateWith [(1, 0x57#8)] []).reg 1 ≠ 0x00#8 ∧
    (stateWith [(1, 0x57#8)] []).reg 1 = (stateWith [(1, 0x57#8)] []).reg 1 := by decide
theorem witness_PolyEvalIsTheSumOfTerms : [0x00#8] ≠ [] ∧ [0x74#8, 0xA3#8, 0x5C#8] ≠ [] := by decide
theorem witness_EvalFollowsItsRule :
    p2.status.err = false ∧ 0xFF#8 ≠ 0x00#8 ∧ 0x01#8 ≠ 0x00#8 ∧ p2.reg 7 = 0x00#8 ∧
    (stateWith [(7, 0x01#8)] []).reg 7 = 0x01#8 ∧ (stateWith [(7, 0x01#8)] []).status.err = false := by decide
theorem witness_LagrangeIsTheUniquePolynomial :
    [0x32#8, 0x01#8, 0x84#8] ≠ [] ∧ [0x9C#8, 0x8B#8, 0xC5#8].length = [0x32#8, 0x01#8, 0x84#8].length ∧
    [0x32#8, 0x01#8, 0x84#8].Nodup ∧ [0x00#8] ≠ [] ∧ [0x00#8].Nodup := by decide
theorem witness_LagrangeIgnoresTheOrderOfPoints :
    [(0x01#8, 0x05#8), (0x02#8, 0x09#8)].Perm [(0x02#8, 0x09#8), (0x01#8, 0x05#8)] := List.Perm.swap _ _ _
theorem witness_LagrangeAtZeroUsesTheNodes :
    [0x32#8, 0x01#8, 0x84#8].Nodup ∧ 2 < [0x32#8, 0x01#8, 0x84#8].length ∧ 0 < [0x32#8, 0x01#8, 0x84#8].length := by
  decide
theorem witness_NoZeroDenominatorAfterTheChecks :
    ∃ t, dup.status.err = false ∧ exec (.interp0 0 0x03#8) dup = .next t ∧ t.status.err = true :=
  ⟨dup.raise .dupX 0x02#8, by decide, rfl, rfl⟩
theorem witness_NoZeroDenominator_interp :
    ∃ t, dup.status.err = false ∧ exec (.interp 0 7 0x03#8) dup = .next t ∧ t.status.err = true :=
  ⟨dup.raise .dupX 0x02#8, by decide, rfl, rfl⟩

/-- Each clause of `InterpolatesTo` at the ends of its range: no point; a first zero at index 0 and at 2; a first
repeat at index 2 and at 254; distinct points, 1 and 255 of them. -/
theorem witness_Interp_zero : FirstZeroX State.reset 255 0 ∧ FirstZeroX (stateWith [] [(.xv, 0, 0x05#8), (.xv, 1, 0x09#8)]) 3 2 := by
  unfold FirstZeroX
  decide
theorem witness_Interp_dup : FirstDupX dup 3 2 := by
  unfold FirstDupX NonZeroX RepeatsX
  decide
theorem witness_Interp_distinct : DistinctX p2 3 ∧ DistinctX p2 1 ∧ p2.elem .xv 0 ≠ 0x00#8 ∧ p2.status.err = false := by
  unfold DistinctX NonZeroX RepeatsX
  decide
theorem witness_Interp_at_zero : p2.reg 7 = 0x00#8 ∧ p2.status.err = false := by decide
theorem witness_Interp_at_node : p2.reg 0 = p2.elem .xv 0 ∧ 0 < 3 ∧ p2.status.err = false := by decide

theorem witness_InterpolationRecoversThePolynomial :
    line.status.err = false ∧ 0x02#8 ≠ 0x00#8 ∧ (0x02#8).toNat ≤ (0x03#8).toNat ∧ DistinctX line (0x03#8).toNat ∧
    ∀ i, i < (0x03#8).toNat →
      polyEval ((List.range (0x02#8).toNat).map (line.elem .cv)) (line.elem .xv i) = some (line.elem .yv i) := by
  unfold DistinctX NonZeroX RepeatsX
  decide +kernel

theorem witness_ClrerrFollowsItsRule : p2.status.legal = true ∧ p2.status.err = false ∧ latched.status.err = true := by
  decide
theorem witness_FaultsArePrecise :
    ∃ t, State.reset.status.err = false ∧ acceptWord 0x05000000#32 State.reset = .next t ∧ t.status.err = true :=
  ⟨State.reset.raise .illegalCmd 0x05#8, rfl, rfl, rfl⟩
theorem witness_LatchDropsAllButTwoWords :
    latched.status.err = true ∧ 0x1001AA00#32 ≠ 0x41000000#32 ∧ 0x1001AA00#32 ≠ 0x42000000#32 ∧
    State.reset.status.err = false ∧ decode 0x40000000#32 = .ok .nop ∧
    decode 0x41000100#32 = .error .fieldNotZero := by decide
theorem witness_FirstFaultIsKeptUntilCleared :
    latched.status.err = true ∧ 0x41000000#32 ∉ [0x42000000#32, 0x05000000#32, 0x41000100#32] := by decide
theorem witness_CommandAfterClrerrExecutes :
    decode 0x1001AA00#32 = .ok (.ldi 1 0xAA#8) ∧
    (latched.withInputs [.command 0x41000000#32, .command 0x1001AA00#32]).host =
      [.command 0x41000000#32, .command 0x1001AA00#32] := by decide
theorem witness_StepRunsTheDecodedCommand :
    (latched.present 0x42000000#32).host = .command 0x42000000#32 :: [] ∧ decode 0x42000000#32 = .ok .wipe ∧
    (p2.present 0x30020003#32).host = .command 0x30020003#32 :: [] ∧
    decode 0x30020003#32 = .ok (.interp0 2 0x03#8) := by decide
theorem witness_StepOfIllegalWordAndIdleStep :
    (State.reset.present 0xFFFFFFFF#32).host = .command 0xFFFFFFFF#32 :: [] ∧
    (State.reset.present 0xFFFFFFFF#32).status.err = false ∧ decode 0xFFFFFFFF#32 = .error .unknownOpcode ∧
    State.reset.host = [] := by decide
theorem witness_StepKeepsTheInvariant :
    ∃ t, (p2.present 0x42000000#32).Inv ∧ step (p2.present 0x42000000#32) = .next t :=
  ⟨State.reset, by unfold State.Inv; decide, rfl⟩
theorem witness_ResetClearsEverything :
    PortsIn.rst { rst := true, cmdValid := true, cmdWord := 0x42000000#32, rdSel := 0#4 } = true := rfl
theorem witness_WipeThenClrerrIsReset :
    (latched.withInputs [.command 0x42000000#32, .command 0x41000000#32]).host =
      [.command 0x42000000#32, .command 0x41000000#32] := rfl
theorem witness_MemoriesThatReadAlikeAreEqual :
    Memory.wf p2.cv = true ∧ Memory.wf (Memory.write (Memory.write p2.cv 9 0x01#8) 9 0x00#8) = true ∧
    Memory.write (Memory.write p2.cv 9 0x01#8) 9 0x00#8 = p2.cv := by decide
theorem witness_ReadPortShowsTheState :
    (0#4).toNat = (0 : Reg).val ∧ (7#4).toNat = (7 : Reg).val ∧ 8#4 = 8#4 ∧ 9 ≤ (9#4).toNat ∧ 9 ≤ (15#4).toNat := by decide

/-- Each hypothesis of `OnlyNamedLocationsChange` is met: a register, an element and STATUS that change. -/
theorem witness_OnlyNamedLocationsChange :
    (∃ t, exec (.ldi 7 0x57#8) State.reset = .next t ∧ t.reg 7 ≠ State.reset.reg 7) ∧
    (∃ t, exec (.setc 0xFF#8 0x57#8) State.reset = .next t ∧ t.elem .cv 255 ≠ State.reset.elem .cv 255) ∧
    (∃ t, exec .clrerr latched = .next t ∧ t.status ≠ latched.status) :=
  ⟨⟨State.reset.setReg 7 0x57#8, rfl, by decide⟩, ⟨State.reset.setElem .cv 255 0x57#8, rfl, by decide⟩,
    ⟨latched.clearError, rfl, by decide⟩⟩

/-- Two states that differ outside the operands of `LDC F6, 0`. -/
theorem witness_ResultsDependOnNamedOperandsOnly :
    ∃ t t', SameOperands (.ldc 6 0x00#8) p2 (p2.setReg 1 0xAA#8) ∧ p2.status.err = false ∧
      (p2.setReg 1 0xAA#8).status.err = false ∧ exec (.ldc 6 0x00#8) p2 = .next t ∧
      exec (.ldc 6 0x00#8) (p2.setReg 1 0xAA#8) = .next t' ∧ t.status.err = false ∧ destReg (.ldc 6 0x00#8) = some 6 :=
  ⟨p2.setReg 6 0x74#8, (p2.setReg 1 0xAA#8).setReg 6 0x74#8, ⟨fun _ h => by simp [sourceRegs] at h, fun _ _ _ => by simp⟩,
    rfl, rfl, rfl, rfl, rfl, rfl⟩

/-- A cycle in which a word is accepted; then as many idle cycles as any latency needs, and none. -/
theorem witness_CommandTakesItsLatency :
    ∃ (p : PortsIn) (ps : List PortsIn), Block.reset.inFlight = none ∧ p.rst = false ∧ p.cmdValid = true ∧
      (∀ q ∈ ps, q.rst = false) ∧ ps.length = cyclesOfWord p.cmdWord ∧ ([] : List PortsIn).length < cyclesOfWord p.cmdWord :=
  ⟨{ rst := false, cmdValid := true, cmdWord := 0x40000000#32, rdSel := 0#4 },
    List.replicate (cyclesOfWord 0x40000000#32) { rst := false, cmdValid := false, cmdWord := 0x00000000#32, rdSel := 8#4 },
    rfl, rfl, rfl, fun q hq => by rw [List.eq_of_mem_replicate hq], List.length_replicate .., Nat.succ_pos _⟩
theorem witness_ReadyDoesNotDependOnStoredValues :
    ∃ b₁' b₂' : Block, Block.inFlight { core := p2, inFlight := none } = Block.inFlight { core := latched, inFlight := none } ∧
      Block.clocks { core := p2, inFlight := none } [] = .next b₁' ∧
      Block.clocks { core := latched, inFlight := none } [] = .next b₂' := ⟨_, _, rfl, rfl, rfl⟩
theorem witness_PseudoInstructionsAreRight : State.reset.status.err = false ∧ (1 : Reg) ≠ 2 := by decide

end Sys2Proof.Machine.Tests
end

section
/-!
PROOFS. The state of the block (10_state.md): what keeps its invariant, the canonical form of a memory, the fields of
STATUS as read, and the whole frame of a command.
-/
namespace Sys2Proof.Machine

/-! The invariant under each update of the state, then under a command, a word and a step. -/

theorem State.inv_iff {s : State} :
    s.Inv ↔ (∀ m, Memory.wf (s.mem m) = true) ∧ s.status.legal = true := by
  constructor
  · rintro ⟨hcv, hxv, hyv, hl⟩
    exact ⟨fun m => by cases m <;> assumption, hl⟩
  · rintro ⟨hm, hl⟩
    exact ⟨hm .cv, hm .xv, hm .yv, hl⟩

theorem Status.legal_clear : Status.clear.legal = true := rfl

theorem State.reset_inv : State.reset.Inv := ⟨Memory.wf_zero, Memory.wf_zero, Memory.wf_zero, Status.legal_clear⟩

theorem State.resetBlock_inv (s : State) : s.resetBlock.Inv := State.reset_inv

/-- ILLEGAL_CMD may record any opcode byte (60_exceptions.md R161). -/
theorem raisesLegally_illegalCmd (info : BitVec 8) : RaisesLegally .illegalCmd info := ⟨by simp, rfl⟩

section Updates
variable {s : State} (hs : s.Inv)
include hs

theorem State.Inv.setHost (host : List HostInput) : State.Inv { s with host := host } := hs

theorem State.Inv.setReg (rd : Reg) (v : Elem) : (s.setReg rd v).Inv := hs

theorem State.Inv.setElem (m : VecMem) {i : Nat} (v : Elem) (hi : i < 256) : (s.setElem m i v).Inv := by
  obtain ⟨hm, hl⟩ := State.inv_iff.mp hs
  refine State.inv_iff.mpr ⟨fun m' => ?_, by simpa using hl⟩
  by_cases h : m' = m
  · subst h
    simpa using Memory.wf_write v (hm m') hi
  · simpa [s.setElem_mem_ne m i v h] using hm m'

theorem State.Inv.raise {c : Cause} {info : BitVec 8} (hr : RaisesLegally c info) : (s.raise c info).Inv := by
  obtain ⟨hcv, hxv, hyv, -⟩ := hs
  exact ⟨hcv, hxv, hyv, hr.2⟩

theorem State.Inv.clearError : s.clearError.Inv := by
  obtain ⟨hcv, hxv, hyv, -⟩ := hs
  exact ⟨hcv, hxv, hyv, Status.legal_clear⟩

theorem State.Inv.wipe : s.wipe.Inv := by
  obtain ⟨-, -, -, hl⟩ := hs
  exact ⟨Memory.wf_zero, Memory.wf_zero, Memory.wf_zero, hl⟩

theorem exec_keeps_inv {i : Instr} {t : State} (h : exec i s = .next t) : t.Inv := by
  cases exec_next h with
  | same h => exact h ▸ hs
  | reg _ rd v _ h => exact h ▸ hs.setReg rd v
  | elem _ m k v _ hk h => exact h ▸ hs.setElem m v hk
  | raise _ c info hl h => exact h ▸ hs.raise hl
  | clear _ h => exact h ▸ hs.clearError
  | wipe _ h => exact h ▸ hs.wipe

theorem acceptWord_keeps_inv {w : Word} {t : State} (h : acceptWord w s = .next t) : t.Inv := by
  rcases acceptWord_cases w s with ⟨_, _, he⟩ | ⟨_, _, he⟩ | ⟨_, _, _, he⟩ | ⟨_, _, he⟩ | ⟨_, i, _, he⟩ <;>
    rw [he] at h
  · cases h; exact hs.clearError
  · cases h; exact hs.wipe
  · cases h; exact hs
  · cases h; exact hs.raise (raisesLegally_illegalCmd _)
  · exact exec_keeps_inv hs h

theorem step_keeps_inv {t : State} (h : step s = .next t) : t.Inv := by
  rcases step_cases s with ⟨_, he⟩ | ⟨rest, _, he⟩ | ⟨w, rest, _, he⟩ <;> rw [he] at h
  · cases h; exact hs
  · cases h; exact State.resetBlock_inv _
  · exact acceptWord_keeps_inv (hs.setHost rest) h

end Updates

/-- Settles O39: one case per thing a step can do, each an update that keeps the invariant. -/
theorem stepKeepsTheInvariant : Obligations.StepKeepsTheInvariant :=
  fun _ _ hs h => step_keeps_inv hs h

/-- Settles O41. -/
theorem resetMeetsTheInvariant : Obligations.ResetMeetsTheInvariant := State.reset_inv

/-! The canonical form of a memory is unique: its first entry is the least index that does not read 0x00. -/

@[simp] theorem Memory.read_head (c : Host.Cell) (m : Memory) : Memory.read (c :: m) c.1 = c.2 := by
  simp [Memory.read_cons]

theorem Memory.read_cons_ne {c : Host.Cell} {i : Nat} (m : Memory) (h : c.1 ≠ i) :
    Memory.read (c :: m) i = Memory.read m i := by
  simp [Memory.read_cons, h]

theorem Memory.read_eq_zero_of_le {m : Memory} {b i : Nat} (hm : Memory.wfFrom (some b) m = true) (hi : i ≤ b) :
    Memory.read m i = 0x00#8 := by
  induction m generalizing b with
  | nil => rfl
  | cons c m ih =>
    obtain ⟨hlo, -, -, htail⟩ := (Memory.wfFrom_cons ..).mp hm
    have hc : b < c.1 := hlo b rfl
    rw [Memory.read_cons_ne m (by omega), ih htail (by omega)]

/-- Below the first index of a canonical memory every element is 0x00, and at it the element is not: so no memory
that reads like it can begin at a greater index. -/
theorem Memory.head_le_of_read_eq {lo : Option Nat} {c c' : Host.Cell} {m m' : Memory}
    (hm : Memory.wfFrom lo (c :: m) = true) (hm' : Memory.wfFrom lo (c' :: m') = true)
    (h : ∀ i, Memory.read (c :: m) i = Memory.read (c' :: m') i) : c'.1 ≤ c.1 := by
  obtain ⟨-, -, hne, -⟩ := (Memory.wfFrom_cons ..).mp hm
  obtain ⟨-, -, -, htail'⟩ := (Memory.wfFrom_cons ..).mp hm'
  by_contra hlt
  refine hne ?_
  calc c.2 = Memory.read (c :: m) c.1 := (Memory.read_head c m).symm
    _ = Memory.read (c' :: m') c.1 := h c.1
    _ = Memory.read m' c.1 := Memory.read_cons_ne m' (by omega)
    _ = 0x00#8 := Memory.read_eq_zero_of_le htail' (by omega)

theorem Memory.eq_nil_of_read_eq_zero {lo : Option Nat} {m : Memory} (hm : Memory.wfFrom lo m = true)
    (h : ∀ i, Memory.read m i = 0x00#8) : m = [] := by
  cases m with
  | nil => rfl
  | cons c m =>
    obtain ⟨-, -, hne, -⟩ := (Memory.wfFrom_cons ..).mp hm
    exact absurd ((Memory.read_head c m).symm.trans (h c.1)) hne

theorem Memory.eq_of_read_eq {lo : Option Nat} {m m' : Memory} (hm : Memory.wfFrom lo m = true)
    (hm' : Memory.wfFrom lo m' = true) (h : ∀ i, Memory.read m i = Memory.read m' i) : m = m' := by
  induction m generalizing lo m' with
  | nil => exact (Memory.eq_nil_of_read_eq_zero hm' fun i => (h i).symm).symm
  | cons c m ih =>
    cases m' with
    | nil => exact Memory.eq_nil_of_read_eq_zero hm h
    | cons c' m' =>
      have hindex : c.1 = c'.1 :=
        le_antisymm (Memory.head_le_of_read_eq hm' hm fun i => (h i).symm) (Memory.head_le_of_read_eq hm hm' h)
      have hvalue : c.2 = c'.2 := by simpa [Memory.read_cons, hindex] using h c.1
      obtain rfl : c = c' := Prod.ext hindex hvalue
      obtain ⟨-, -, -, htail⟩ := (Memory.wfFrom_cons ..).mp hm
      obtain ⟨-, -, -, htail'⟩ := (Memory.wfFrom_cons ..).mp hm'
      have hreads (i : Nat) : Memory.read m i = Memory.read m' i := by
        by_cases hi : c.1 = i
        · rw [Memory.read_eq_zero_of_le htail hi.ge, Memory.read_eq_zero_of_le htail' hi.ge]
        · simpa only [Memory.read_cons_ne _ hi] using h i
      rw [ih htail htail' hreads]

/-- Settles O47: the first entries agree, and below their index both tails read 0x00, so the tails agree too. -/
theorem memoriesThatReadAlikeAreEqual : Obligations.MemoriesThatReadAlikeAreEqual :=
  fun _ _ hm hm' h => Memory.eq_of_read_eq hm hm' h

/-! The frame of a command. -/

/-- Settles O50: each thing a command can do changes the one location it names. -/
theorem onlyNamedLocationsChange : Obligations.OnlyNamedLocationsChange := by
  intro i s t h
  cases exec_next h with
  | same h => simp [h]
  | reg _ rd v hd h =>
    subst h
    refine ⟨fun r hr => .inl ?_, by simp, by simp, rfl⟩
    have hrd : r = rd := by
      by_contra hne
      exact hr (s.reg_setReg_ne rd v hne)
    rw [hd, hrd]
  | elem _ m k v hd _ h =>
    subst h
    refine ⟨by simp, fun m' k' hr => .inl ?_, by simp, by simp⟩
    obtain ⟨rfl, rfl⟩ : m' = m ∧ k' = k := by
      by_contra hne
      exact hr (by rw [s.elem_setElem, if_neg hne])
    exact hd
  | raise hc c info _ h => exact h ▸ ⟨by simp, by simp, fun _ => .inr ⟨hc, rfl⟩, rfl⟩
  | clear hi h => exact h ▸ ⟨by simp, by simp, fun _ => .inl hi, rfl⟩
  | wipe hi h => exact h ▸ ⟨fun _ _ => .inr hi, fun _ _ _ => .inr hi, by simp, rfl⟩

/-! The state after reset and the fields of STATUS as read. -/

theorem State.reset_allZero : AllZero State.reset :=
  ⟨State.reset.resetBlock_reg, State.reset.resetBlock_elem, rfl⟩

@[simp] theorem Status.word_clear : Status.clear.word = 0x00000000#32 := by decide

/-- Settles O40. -/
theorem resetStateIsAllZero : Obligations.ResetStateIsAllZero := ⟨State.reset_allZero, Status.word_clear⟩

/-- 10_state.md R23, bit by bit: the three fields do not overlap. -/
theorem Status.getLsbD_word (t : Status) (i : Nat) :
    t.word.getLsbD i =
      if i < 4 then decide (i = 0) && t.err
      else if i < 8 then t.cause.code.getLsbD (i - 4)
      else if i < 16 then t.einfo.getLsbD (i - 8) else false := by
  simp only [Status.word, BitVec.getLsbD_or, BitVec.getLsbD_shiftLeft, BitVec.getLsbD_setWidth, BitVec.getLsbD_ofBool]
  split
  · next h => simp [h, show i < 8 by omega, show i < 32 by omega]
  split
  · next h4 h8 => simp [h4, h8, show i < 32 by omega, show i - 4 < 32 by omega, show i ≠ 0 by omega]
  have hcode : t.cause.code.getLsbD (i - 4) = false := BitVec.getLsbD_of_ge _ _ (by omega)
  split
  · next h8 h16 => simp [hcode, h8, show i < 32 by omega, show i - 8 < 32 by omega, show i ≠ 0 by omega]
  · next h16 =>
    have heinfo : t.einfo.getLsbD (i - 8) = false := BitVec.getLsbD_of_ge _ _ (by omega)
    simp [hcode, heinfo, show i ≠ 0 by omega]

theorem Status.word_err (t : Status) : t.word.getLsbD 0 = t.err :=
  (t.getLsbD_word 0).trans (by simp)

theorem Status.word_bits_3_1 (t : Status) : t.word.extractLsb' 1 3 = 0#3 := by
  ext j hj
  simp [Status.getLsbD_word, show 1 + j < 4 by omega]

theorem Status.word_cause (t : Status) : t.word.extractLsb' 4 4 = t.cause.code := by
  ext j hj
  simp [Status.getLsbD_word, show 4 + j < 8 by omega, BitVec.getLsbD_eq_getElem hj]

theorem Status.word_einfo (t : Status) : t.word.extractLsb' 8 8 = t.einfo := by
  ext j hj
  simp [Status.getLsbD_word, show ¬ 8 + j < 4 by omega, show 8 + j < 16 by omega, BitVec.getLsbD_eq_getElem hj]

theorem Status.word_bits_31_16 (t : Status) : t.word.extractLsb' 16 16 = 0#16 := by
  ext j hj
  simp [Status.getLsbD_word, show ¬ 16 + j < 4 by omega, show ¬ 16 + j < 8 by omega]

/-- Settles O49: one lemma per field. -/
theorem statusWordLayout : Obligations.StatusWordLayout := by
  intro t
  refine ⟨t.word_err, t.word_bits_3_1, t.word_cause.trans ?_, t.word_einfo, t.word_bits_31_16⟩
  cases t.cause <;> rfl
end Sys2Proof.Machine
end

section
/-!
PROOFS. The memories and the ports (20_memory.md): what a read returns and the read port shows, the step of a decoded
word, that every step goes on, and the clocked ports against the step.
-/
namespace Sys2Proof.Machine

/-! Reads and writes (20_memory.md R44, R47). -/

theorem setElem_onlyElem (s : State) (m : VecMem) (i : Nat) (v : Elem) : OnlyElemChanges m i s (s.setElem m i v) := by
  refine ⟨by simp, fun m' j hne => ?_, by simp, by simp⟩
  rw [s.elem_setElem, if_neg (by tauto)]

/-- Settles O46: the frame of each of the two writes. -/
theorem readsReturnTheLastWrite : Obligations.ReadsReturnTheLastWrite :=
  ⟨fun s m i v => ⟨by simp [s.elem_setElem], setElem_onlyElem s m i v⟩,
   fun s rd v => ⟨by simp, setReg_onlyReg s rd v⟩⟩

theorem State.readPort_reg (s : State) {sel : BitVec 4} {r : Reg} (h : sel.toNat = r.val) :
    s.readPort sel = (s.reg r).setWidth 32 := by
  simp [State.readPort, h]

theorem State.readPort_status (s : State) : s.readPort 8#4 = s.status.word := rfl

theorem State.readPort_unused (s : State) {sel : BitVec 4} (h : 9 ≤ sel.toNat) : s.readPort sel = 0x00000000#32 := by
  have hne : sel ≠ 8#4 := by rintro rfl; simp at h
  simp [State.readPort, hne, show ¬ sel.toNat < 8 by omega]

/-- Settles O48: one lemma per range of selectors; `outputs` reads the state whatever is in flight. -/
theorem readPortShowsTheState : Obligations.ReadPortShowsTheState := by
  intro b p
  refine ⟨fun r hr => ?_, fun h => ?_, b.core.readPort_unused⟩
  · have hdata : (b.outputs p).rdData = (b.core.reg r).setWidth 32 := b.core.readPort_reg hr
    rw [hdata]
    exact ⟨by ext j hj; simp [hj, show j < 32 by omega], by ext j hj; simp⟩
  · exact (congrArg b.core.readPort h).trans b.core.readPort_status

end Sys2Proof.Machine

namespace Sys2Proof

/-! A word that decodes holds the fields of its command: one lemma per format (30_encoding.md R61), then the opcode
map (R63). -/

section Formats
variable {x : Fields} {i : Instr}

theorem fieldsOfInstr_of_decodeR3 {k : Reg → Reg → Reg → Instr} (h : decodeR3 k x = .ok i)
    (hk : ∀ rd rs1 rs2, fieldsOfInstr (k rd rs1 rs2) = ⟨x.op, fieldOfReg rd, fieldOfReg rs1, fieldOfReg rs2⟩) :
    fieldsOfInstr i = x := by
  simp only [decodeR3, except_bind_ok_iff, regField_ok_iff, Except.ok.injEq] at h
  obtain ⟨rd, hd, rs1, ha, rs2, hb, rfl⟩ := h
  rw [hk, ← hd, ← ha, ← hb]

theorem fieldsOfInstr_of_decodeR2 {k : Reg → Reg → Instr} (h : decodeR2 k x = .ok i)
    (hk : ∀ rd rs1, fieldsOfInstr (k rd rs1) = ⟨x.op, fieldOfReg rd, fieldOfReg rs1, 0x00#8⟩) :
    fieldsOfInstr i = x := by
  simp only [decodeR2, except_bind_ok_iff, regField_ok_iff, zeroField_ok_iff, Except.ok.injEq] at h
  obtain ⟨rd, hd, rs1, ha, _, hb, rfl⟩ := h
  rw [hk, ← hd, ← ha, ← hb]

theorem fieldsOfInstr_of_decodeRI {k : Reg → BitVec 8 → Instr} (h : decodeRI k x = .ok i)
    (hk : ∀ rd v, fieldsOfInstr (k rd v) = ⟨x.op, fieldOfReg rd, v, 0x00#8⟩) : fieldsOfInstr i = x := by
  simp only [decodeRI, except_bind_ok_iff, regField_ok_iff, zeroField_ok_iff, Except.ok.injEq] at h
  obtain ⟨rd, hd, _, hb, rfl⟩ := h
  rw [hk, ← hd, ← hb]

theorem fieldsOfInstr_of_decodeSR {k : Index → Reg → Instr} (h : decodeSR k x = .ok i)
    (hk : ∀ idx rs, fieldsOfInstr (k idx rs) = ⟨x.op, 0x00#8, idx, fieldOfReg rs⟩) : fieldsOfInstr i = x := by
  simp only [decodeSR, except_bind_ok_iff, regField_ok_iff, zeroField_ok_iff, Except.ok.injEq] at h
  obtain ⟨_, hd, rs, hb, rfl⟩ := h
  rw [hk, ← hd, ← hb]

theorem fieldsOfInstr_of_decodeSI {k : Index → Elem → Instr} (h : decodeSI k x = .ok i)
    (hk : ∀ idx v, fieldsOfInstr (k idx v) = ⟨x.op, 0x00#8, idx, v⟩) : fieldsOfInstr i = x := by
  simp only [decodeSI, except_bind_ok_iff, zeroField_ok_iff, Except.ok.injEq] at h
  obtain ⟨_, hd, rfl⟩ := h
  rw [hk, ← hd]

theorem fieldsOfInstr_of_decodeRV {k : Reg → Reg → Count → Instr} (h : decodeRV k x = .ok i)
    (hk : ∀ rd rs len, fieldsOfInstr (k rd rs len) = ⟨x.op, fieldOfReg rd, fieldOfReg rs, len⟩) :
    fieldsOfInstr i = x := by
  simp only [decodeRV, except_bind_ok_iff, regField_ok_iff, Except.ok.injEq] at h
  obtain ⟨rd, hd, rs, ha, rfl⟩ := h
  rw [hk, ← hd, ← ha]

theorem fieldsOfInstr_of_decodeR0V {k : Reg → Count → Instr} (h : decodeR0V k x = .ok i)
    (hk : ∀ rd len, fieldsOfInstr (k rd len) = ⟨x.op, fieldOfReg rd, 0x00#8, len⟩) : fieldsOfInstr i = x := by
  simp only [decodeR0V, except_bind_ok_iff, regField_ok_iff, zeroField_ok_iff, Except.ok.injEq] at h
  obtain ⟨rd, hd, _, ha, rfl⟩ := h
  rw [hk, ← hd, ← ha]

theorem fieldsOfInstr_of_decodeZ {k : Instr} (h : decodeZ k x = .ok i)
    (hk : fieldsOfInstr k = ⟨x.op, 0x00#8, 0x00#8, 0x00#8⟩) : fieldsOfInstr i = x := by
  simp only [decodeZ, except_bind_ok_iff, zeroField_ok_iff, Except.ok.injEq] at h
  obtain ⟨_, hd, _, ha, _, hb, rfl⟩ := h
  rw [hk, Fields.mk.injEq]
  exact ⟨rfl, hd.symm, ha.symm, hb.symm⟩

theorem fieldsOfInstr_of_decodeFields (h : decodeFields x = .ok i) : fieldsOfInstr i = x := by
  obtain ⟨op, d, a, b⟩ := x
  simp only [decodeFields] at h
  split at h
  case h_1 | h_2 | h_4 => exact fieldsOfInstr_of_decodeR3 h fun _ _ _ => rfl
  case h_3 => exact fieldsOfInstr_of_decodeR2 h fun _ _ => rfl
  case h_5 | h_6 | h_7 | h_8 => exact fieldsOfInstr_of_decodeRI h fun _ _ => rfl
  case h_9 | h_10 | h_11 => exact fieldsOfInstr_of_decodeSR h fun _ _ => rfl
  case h_12 | h_13 | h_14 => exact fieldsOfInstr_of_decodeSI h fun _ _ => rfl
  case h_15 | h_17 => exact fieldsOfInstr_of_decodeRV h fun _ _ _ => rfl
  case h_16 => exact fieldsOfInstr_of_decodeR0V h fun _ _ => rfl
  case h_18 | h_19 | h_20 => exact fieldsOfInstr_of_decodeZ h rfl
  case h_21 => cases h

end Formats

/-- No bit of a word that decodes is ignored: the word is the encoding of its command. -/
theorem encode_of_decode {w : Word} {i : Instr} (h : decode w = .ok i) : encode i = w := by
  rw [encode, fieldsOfInstr_of_decodeFields h, wordOfFields_fieldsOfWord]

end Sys2Proof

namespace Sys2Proof.Machine

/-! Interpolation has a value after the checks (43_lagrange_interpolation.md R135): no difference of two x-coordinates
is zero, so no inverse is missing. -/

theorem gfInv_isSome {a : Elem} (h : a ≠ 0x00#8) : (gfInv a).isSome := by simp [gfInv, h]

theorem gfAdd_ne_zero {a b : Elem} (h : a ≠ b) : gfAdd a b ≠ 0x00#8 :=
  fun h0 => h (BitVec.xor_eq_zero_iff.mp h0)

theorem getD_ne_of_firstDuplicate_none {xs : List Elem} (h : firstDuplicate xs = none) {i j : Nat} (hi : i < xs.length)
    (hj : j < xs.length) (hne : i ≠ j) : xs.getD i 0x00#8 ≠ xs.getD j 0x00#8 := by
  have hlt {i j : Nat} (hj : j < xs.length) (hij : i < j) : xs.getD i 0x00#8 ≠ xs.getD j 0x00#8 := by
    have hall := List.find?_eq_none.mp h j (List.mem_range.mpr hj)
    simp only [List.any_eq_true, List.mem_range, beq_iff_eq, not_exists, not_and] at hall
    exact hall i hij
  rcases Nat.lt_or_gt_of_ne hne with hij | hji
  · exact hlt hj hij
  · exact (hlt hi hji).symm

theorem foldlM_isSome {α β : Type} {f : α → β → Option α} {l : List β} (h : ∀ a, ∀ b ∈ l, (f a b).isSome) (a : α) :
    (l.foldlM f a).isSome := by
  induction l generalizing a with
  | nil => rfl
  | cons b l ih =>
    obtain ⟨a', ha'⟩ := Option.isSome_iff_exists.mp (h a b List.mem_cons_self)
    rw [List.foldlM_cons, ha']
    exact ih (fun a c hc => h a c (List.mem_cons_of_mem b hc)) a'

section Distinct
variable {xs : List Elem} (hdistinct : firstDuplicate xs = none)
include hdistinct

theorem lagrangeBasis_isSome (xstar : Elem) {i : Nat} (hi : i < xs.length) : (lagrangeBasis xs xstar i).isSome := by
  refine foldlM_isSome (fun acc j hj => ?_) _
  by_cases hji : j = i
  · simp [hji]
  · have hne := getD_ne_of_firstDuplicate_none hdistinct hi (List.mem_range.mp hj) (Ne.symm hji)
    rw [if_neg hji, Option.isSome_map]
    exact gfInv_isSome (gfAdd_ne_zero hne)

theorem lagrange_isSome (ys : List Elem) (xstar : Elem) (hxs : xs.length ≠ 0) (hys : ys.length = xs.length) :
    (lagrange xs ys xstar).isSome := by
  rw [lagrange, if_neg (by simp [hxs, hys])]
  refine foldlM_isSome (fun acc i hi => ?_) _
  rw [Option.isSome_map]
  exact lagrangeBasis_isSome hdistinct xstar (List.mem_range.mp hi)

end Distinct

/-! Every effect answers a next state, and the host's inputs pass through it: first each shared update, then a command. -/

/-- The effect answers a next state from every state, and the host's inputs to come are neither read nor changed
(10_state.md R27; log entry 1). -/
def GoesOn (effect : State → Outcome) : Prop :=
  ∀ s, ∃ t, effect s = .next t ∧ ∀ inputs, effect (s.withInputs inputs) = .next (t.withInputs inputs)

theorem GoesOn.withInputs {effect : State → Outcome} (h : GoesOn effect) {s t : State} (ht : effect s = .next t)
    (inputs : List HostInput) : effect (s.withInputs inputs) = .next (t.withInputs inputs) := by
  obtain ⟨t', ht', hinputs⟩ := h s
  cases ht.symm.trans ht'
  exact hinputs inputs

theorem GoesOn.host_eq {effect : State → Outcome} (h : GoesOn effect) {s t : State} (ht : effect s = .next t) :
    t.host = s.host := by
  have heq : t = t.withInputs s.host := Host.Outcome.next.inj (ht.symm.trans (h.withInputs ht s.host))
  rw [heq]
  rfl

theorem GoesOn.unlessLatched {effect : State → Outcome} (h : GoesOn effect) : GoesOn (·.unlessLatched effect) := by
  intro s
  cases hs : s.status.err with
  | false =>
    obtain ⟨t, ht, hinputs⟩ := h s
    refine ⟨t, (unlessLatched_of_clear hs).trans ht, fun inputs => ?_⟩
    exact (unlessLatched_of_clear (s := s.withInputs inputs) hs).trans (hinputs inputs)
  | true => exact ⟨s, unlessLatched_of_latched hs, fun _ => unlessLatched_of_latched hs⟩

@[simp] theorem vectorOperand_withInputs (s : State) (inputs : List HostInput) (m : VecMem) (len : Count) :
    vectorOperand (s.withInputs inputs) m len = vectorOperand s m len := by simp [vectorOperand]

theorem State.setReg_withInputs (s : State) (inputs : List HostInput) (rd : Reg) (v : Elem) :
    (s.withInputs inputs).setReg rd v = (s.setReg rd v).withInputs inputs := rfl

theorem State.setElem_withInputs (s : State) (inputs : List HostInput) (m : VecMem) (i : Nat) (v : Elem) :
    (s.withInputs inputs).setElem m i v = (s.setElem m i v).withInputs inputs := by cases m <;> rfl

theorem goesOn_raise (c : Cause) (info : BitVec 8) : GoesOn fun s => .next (s.raise c info) :=
  fun _ => ⟨_, rfl, fun _ => rfl⟩

theorem goesOn_writeDest (rd : Reg) {v : State → Elem} (hv : ∀ s inputs, v (s.withInputs inputs) = v s) :
    GoesOn fun s => writeDest s rd (v s) :=
  fun s => ⟨_, rfl, fun inputs => by simp [hv, State.setReg_withInputs]⟩

theorem goesOn_writeElement (m : VecMem) (idx : Index) {v : State → Elem}
    (hv : ∀ s inputs, v (s.withInputs inputs) = v s) : GoesOn fun s => writeElement s m idx (v s) :=
  fun s => ⟨_, rfl, fun inputs => by simp [hv, State.setElem_withInputs]⟩

theorem goesOn_writeOrRaise (rd : Reg) (c : Cause) (info : BitVec 8) {o : State → Option Elem}
    (ho : ∀ s inputs, o (s.withInputs inputs) = o s) :
    GoesOn fun s => match o s with | none => .next (s.raise c info) | some v => writeDest s rd v := by
  intro s
  simp only [ho]
  cases o s with
  | none => exact goesOn_raise c info s
  | some v => exact goesOn_writeDest rd (v := fun _ => v) (fun _ _ => rfl) s

theorem goesOn_interpolateTo (rd : Reg) (len : Count) {point : State → Elem}
    (hp : ∀ s inputs, point (s.withInputs inputs) = point s) : GoesOn fun s => interpolateTo rd (point s) len s := by
  intro s
  simp only [interpolateTo, vectorOperand_withInputs, hp]
  cases hx : checkXs (vectorOperand s .xv len) with
  | some f => exact goesOn_raise f.1 f.2 s
  | none =>
    obtain ⟨hne, -, hdistinct⟩ := checkXs_none hx
    obtain ⟨v, hv⟩ := Option.isSome_iff_exists.mp
      (lagrange_isSome hdistinct (vectorOperand s .yv len) (point s) hne (by simp))
    simp only [hv]
    exact goesOn_writeDest rd (v := fun _ => v) (fun _ _ => rfl) s

theorem exec_goesOn (i : Instr) : GoesOn (exec i) := by
  cases i with
  | gfadd rd rs1 rs2 => exact (goesOn_writeDest rd fun _ _ => rfl).unlessLatched
  | gfmul rd rs1 rs2 => exact (goesOn_writeDest rd fun _ _ => rfl).unlessLatched
  | gfinv rd rs1 => exact (goesOn_writeOrRaise rd .invZero (regInfo rs1) fun _ _ => rfl).unlessLatched
  | gfdiv rd rs1 rs2 => exact (goesOn_writeOrRaise rd .invZero (regInfo rs2) fun _ _ => rfl).unlessLatched
  | ldi rd imm8 => exact (goesOn_writeDest rd fun _ _ => rfl).unlessLatched
  | ldc rd idx => exact (goesOn_writeDest rd fun _ _ => rfl).unlessLatched
  | ldx rd idx => exact (goesOn_writeDest rd fun _ _ => rfl).unlessLatched
  | ldy rd idx => exact (goesOn_writeDest rd fun _ _ => rfl).unlessLatched
  | stc idx rs => exact (goesOn_writeElement .cv idx fun _ _ => rfl).unlessLatched
  | stx idx rs => exact (goesOn_writeElement .xv idx fun _ _ => rfl).unlessLatched
  | sty idx rs => exact (goesOn_writeElement .yv idx fun _ _ => rfl).unlessLatched
  | setc idx imm8 => exact (goesOn_writeElement .cv idx fun _ _ => rfl).unlessLatched
  | setx idx imm8 => exact (goesOn_writeElement .xv idx fun _ _ => rfl).unlessLatched
  | sety idx imm8 => exact (goesOn_writeElement .yv idx fun _ _ => rfl).unlessLatched
  | eval rd rs len =>
    exact (goesOn_writeOrRaise rd .badLen 0x00#8 fun s inputs => by rw [vectorOperand_withInputs]; rfl).unlessLatched
  | interp0 rd len => exact (goesOn_interpolateTo rd len fun _ _ => rfl).unlessLatched
  | interp rd rs len => exact (goesOn_interpolateTo rd len fun _ _ => rfl).unlessLatched
  | nop => exact fun s => ⟨s, execNop_eq s, fun inputs => execNop_eq (s.withInputs inputs)⟩
  | clrerr => exact fun _ => ⟨_, rfl, fun _ => rfl⟩
  | wipe => exact fun _ => ⟨_, rfl, fun _ => rfl⟩

/-! An accepted word. The latch is looked at for the word and again in the command's own meaning; the two looks agree
(log entry 7). -/

theorem exec_of_latched {i : Instr} {s : State} (hs : s.status.err = true) (hc : i ≠ .clrerr) (hw : i ≠ .wipe) :
    exec i s = .next s := by
  obtain ⟨t, ht, -⟩ := exec_goesOn i s
  have hclear : s.status.err ≠ false := by simp [hs]
  cases exec_next ht with
  | same h => exact h ▸ ht
  | reg h => exact absurd h hclear
  | elem h => exact absurd h hclear
  | raise h => exact absurd h hclear
  | clear h => exact absurd h hc
  | wipe h => exact absurd h hw

theorem acceptWord_of_dropped {w : Word} {s : State} (hs : s.status.err = true) (hc : w ≠ clrerrWord)
    (hw : w ≠ wipeWord) : acceptWord w s = .next s := by simp [acceptWord, hs, hc, hw]

theorem acceptWord_of_decode {w : Word} {i : Instr} (h : decode w = .ok i) (s : State) : acceptWord w s = exec i s := by
  have hword : w = encode i := (encode_of_decode h).symm
  cases hs : s.status.err with
  | false => simp [acceptWord, hs, h]
  | true =>
    by_cases hc : i = .clrerr
    · subst hc
      simp [acceptWord, hs, show w = clrerrWord from hword]
    by_cases hw : i = .wipe
    · subst hw
      simp [acceptWord, hs, show w = wipeWord from hword, show wipeWord ≠ clrerrWord by decide]
    rw [exec_of_latched hs hc hw]
    refine acceptWord_of_dropped hs ?_ ?_ <;> rintro rfl
    · exact hc (Except.ok.inj h).symm
    · exact hw (Except.ok.inj h).symm

theorem acceptWord_of_illegal {w : Word} {e : IllegalWord} (h : decode w = .error e) (s : State) :
    acceptWord w s = s.unlessLatched (raiseIllegal w) := by
  cases hs : s.status.err with
  | false => rw [unlessLatched_of_clear hs]; simp [acceptWord, hs, h]
  | true =>
    rw [unlessLatched_of_latched hs]
    refine acceptWord_of_dropped hs ?_ ?_ <;> rintro rfl <;> cases h

theorem acceptWord_goesOn (w : Word) : GoesOn (acceptWord w) := by
  cases hd : decode w with
  | ok i => exact funext (acceptWord_of_decode hd) ▸ exec_goesOn i
  | error e => exact funext (acceptWord_of_illegal hd) ▸ (goesOn_raise .illegalCmd (fieldsOfWord w).op).unlessLatched

theorem hostStep_goesOn (inp : HostInput) : GoesOn (hostStep inp) := by
  cases inp with
  | command w => exact acceptWord_goesOn w
  | reset => exact fun _ => ⟨_, rfl, fun _ => rfl⟩

/-! The step takes the host's next input. -/

theorem step_of_host_cons {s : State} {inp : HostInput} {rest : List HostInput} (h : s.host = inp :: rest) :
    step s = hostStep inp (s.withInputs rest) := by
  rw [step, h]
  rfl

/-- Settles O37: the step accepts the word, and accepting a word that decodes runs its command, latched or not. -/
theorem stepRunsTheDecodedCommand : Obligations.StepRunsTheDecodedCommand :=
  fun _ _ _ _ hhost hdecode => (step_of_host_cons hhost).trans (acceptWord_of_decode hdecode _)

/-- Settles O42: the one outcome that is not a next state would need the inverse of zero, which the checks exclude. -/
theorem everyStepGoesOn : Obligations.EveryStepGoesOn := by
  intro s
  cases h : s.host with
  | nil => exact ⟨s, by rw [step, h], h⟩
  | cons inp rest =>
    obtain ⟨t, ht, -⟩ := hostStep_goesOn inp (s.withInputs rest)
    exact ⟨t, (step_of_host_cons h).trans ht, (hostStep_goesOn inp).host_eq ht⟩

theorem core_run_succ {s t : core.State} (h : core.step s = .next t) (k : Nat) : core.run (k + 1) s = core.run k t := by
  rw [Host.Core.run, h]

/-- One input of a run: what it does to the state does not depend on the inputs that follow. -/
theorem run_inputs_cons {inp : HostInput} {s t : State} (h : hostStep inp s = .next t) (inputs : List HostInput) :
    core.run (inp :: inputs).length (s.withInputs (inp :: inputs)) = core.run inputs.length (t.withInputs inputs) := by
  have hstep : core.step (s.withInputs (inp :: inputs)) = .next (t.withInputs inputs) :=
    (hostStep_goesOn inp).withInputs h inputs
  exact core_run_succ hstep inputs.length

/-! The clocked ports (20_memory.md R40, R41, R44). -/

section Clock
variable {b b' : Block} {p : PortsIn}

theorem Block.clock_of_completes_none (h : b.completes p = none) : b.clock p = .next ⟨b.core, b.nextInFlight p⟩ := by
  rw [Block.clock, h]

theorem Block.clock_of_completes_some {inp : HostInput} {t : State} (h : b.completes p = some inp)
    (ht : hostStep inp b.core = .next t) : b.clock p = .next ⟨t, b.nextInFlight p⟩ := by
  simp only [Block.clock, h, ht]

theorem Block.clocks_cons (h : b.clock p = .next b') (ps : List PortsIn) : b.clocks (p :: ps) = b'.clocks ps := by
  rw [Block.clocks, h]

theorem Block.completed_cons (h : b.clock p = .next b') (ps : List PortsIn) :
    b.completed (p :: ps) = (b.completes p).toList ++ b'.completed ps := by
  rw [Block.completed, h]

end Clock

/-- Settles O53, by induction on the cycles: a cycle that completes an input is the step of that input, and a cycle
that completes none changes no architectural state. -/
theorem portsRefineSteps : Obligations.PortsRefineSteps := by
  intro b ps
  induction ps generalizing b with
  | nil => exact ⟨b, rfl, rfl⟩
  | cons p ps ih =>
    cases hc : b.completes p with
    | none =>
      have hclock := Block.clock_of_completes_none hc
      obtain ⟨b', hclocks, hrun⟩ := ih ⟨b.core, b.nextInFlight p⟩
      refine ⟨b', (Block.clocks_cons hclock ps).trans hclocks, ?_⟩
      rw [Block.completed_cons hclock, hc]
      exact hrun
    | some inp =>
      obtain ⟨t, ht, -⟩ := hostStep_goesOn inp b.core
      have hclock := Block.clock_of_completes_some hc ht
      obtain ⟨b', hclocks, hrun⟩ := ih ⟨t, b.nextInFlight p⟩
      refine ⟨b', (Block.clocks_cons hclock ps).trans hclocks, ?_⟩
      rw [Block.completed_cons hclock, hc]
      exact (run_inputs_cons ht _).trans hrun

theorem cyclesOfWord_pos (w : Word) : 0 < cyclesOfWord w := Nat.succ_pos _

@[simp] theorem Block.cmdReady_idle (s : State) (q : PortsIn) : Block.cmdReady ⟨s, none⟩ q = !q.rst := by
  simp [Block.cmdReady]

@[simp] theorem Block.cmdReady_busy (s : State) (c : InFlight) (q : PortsIn) : Block.cmdReady ⟨s, some c⟩ q = false := by
  simp [Block.cmdReady]

section Latency
variable (s : State) {q : PortsIn} (hq : q.rst = false)
include hq

theorem Block.clock_accepts (hv : q.cmdValid = true) :
    Block.clock ⟨s, none⟩ q = .next ⟨s, some ⟨q.cmdWord, cyclesOfWord q.cmdWord⟩⟩ := by
  rw [Block.clock_of_completes_none (by simp [Block.completes, hq])]
  simp [Block.nextInFlight, hq, hv]

theorem Block.clock_counts (w : Word) {n : Nat} (hn : 1 < n) :
    Block.clock ⟨s, some ⟨w, n⟩⟩ q = .next ⟨s, some ⟨w, n - 1⟩⟩ := by
  rw [Block.clock_of_completes_none (by simp [Block.completes, hq, hn])]
  simp [Block.nextInFlight, hq, hn]

theorem Block.clock_finishes {w : Word} {t : State} (ht : acceptWord w s = .next t) :
    Block.clock ⟨s, some ⟨w, 1⟩⟩ q = .next ⟨t, none⟩ := by
  have hc : Block.completes ⟨s, some ⟨w, 1⟩⟩ q = some (.command w) := by simp [Block.completes, hq]
  rw [Block.clock_of_completes_some hc ht]
  simp [Block.nextInFlight, hq]

end Latency

theorem Block.clocks_inFlight_short (s : State) (w : Word) {n : Nat} {ps : List PortsIn} (hps : ∀ q ∈ ps, q.rst = false)
    (hn : ps.length < n) : Block.clocks ⟨s, some ⟨w, n⟩⟩ ps = .next ⟨s, some ⟨w, n - ps.length⟩⟩ := by
  induction ps generalizing n with
  | nil => rfl
  | cons q ps ih =>
    obtain ⟨hq, hps⟩ := List.forall_mem_cons.mp hps
    rw [List.length_cons] at hn ⊢
    rw [Block.clocks_cons (Block.clock_counts s hq w (by omega)), ih hps (by omega), Nat.sub_sub, Nat.add_comm 1]

theorem Block.clocks_inFlight_whole {s t : State} {w : Word} (ht : acceptWord w s = .next t) {ps : List PortsIn}
    (hps : ∀ q ∈ ps, q.rst = false) (hpos : 0 < ps.length) :
    Block.clocks ⟨s, some ⟨w, ps.length⟩⟩ ps = .next ⟨t, none⟩ := by
  induction ps with
  | nil => cases hpos
  | cons q ps ih =>
    obtain ⟨hq, hps⟩ := List.forall_mem_cons.mp hps
    rcases Nat.eq_zero_or_pos ps.length with h0 | hpos
    · obtain rfl := List.eq_nil_of_length_eq_zero h0
      exact Block.clocks_cons (Block.clock_finishes s hq ht) []
    · rw [List.length_cons, Block.clocks_cons (Block.clock_counts s hq w (by omega))]
      exact ih hps hpos

/-- Settles O52: the accepting edge, then one edge per cycle of LAT; only the last has an effect. -/
theorem commandTakesItsLatency : Obligations.CommandTakesItsLatency := by
  rintro ⟨s, _⟩ p ps rfl hrst hvalid hps
  have haccept := Block.clocks_cons (Block.clock_accepts s hrst hvalid) ps
  refine ⟨by simp [hrst], fun hlt => ?_, fun heq => ?_⟩
  · exact ⟨_, haccept.trans (Block.clocks_inFlight_short s _ hps hlt), rfl, Block.cmdReady_busy s _⟩
  · obtain ⟨t, ht, -⟩ := acceptWord_goesOn p.cmdWord s
    rw [← heq] at haccept
    exact ⟨_, haccept.trans (Block.clocks_inFlight_whole ht hps (heq ▸ cyclesOfWord_pos _)), ht,
      fun q hq => by simp [hq]⟩

end Sys2Proof.Machine
end

section
/-!
PROOFS. The command words (30_encoding.md): the encoder and the decoder are inverse, a word is illegal in exactly the
three ways of R65, and the mask of a format decides as the decoder does.
-/
namespace Sys2Proof

/-! Decoding the fields of a command: one lemma per format (R61), then the opcode map (R63). -/

section Formats
variable (op : BitVec 8)

theorem decodeR3_fields (k : Reg → Reg → Reg → Instr) (rd rs1 rs2 : Reg) :
    decodeR3 k ⟨op, fieldOfReg rd, fieldOfReg rs1, fieldOfReg rs2⟩ = .ok (k rd rs1 rs2) := by
  simp [decodeR3, bind, Except.bind]

theorem decodeR2_fields (k : Reg → Reg → Instr) (rd rs1 : Reg) :
    decodeR2 k ⟨op, fieldOfReg rd, fieldOfReg rs1, 0x00#8⟩ = .ok (k rd rs1) := by
  simp [decodeR2, bind, Except.bind]

theorem decodeRI_fields (k : Reg → BitVec 8 → Instr) (rd : Reg) (v : BitVec 8) :
    decodeRI k ⟨op, fieldOfReg rd, v, 0x00#8⟩ = .ok (k rd v) := by
  simp [decodeRI, bind, Except.bind]

theorem decodeSR_fields (k : Index → Reg → Instr) (idx : Index) (rs : Reg) :
    decodeSR k ⟨op, 0x00#8, idx, fieldOfReg rs⟩ = .ok (k idx rs) := by
  simp [decodeSR, bind, Except.bind]

theorem decodeSI_fields (k : Index → Elem → Instr) (idx : Index) (v : Elem) :
    decodeSI k ⟨op, 0x00#8, idx, v⟩ = .ok (k idx v) := rfl

theorem decodeRV_fields (k : Reg → Reg → Count → Instr) (rd rs : Reg) (len : Count) :
    decodeRV k ⟨op, fieldOfReg rd, fieldOfReg rs, len⟩ = .ok (k rd rs len) := by
  simp [decodeRV, bind, Except.bind]

theorem decodeR0V_fields (k : Reg → Count → Instr) (rd : Reg) (len : Count) :
    decodeR0V k ⟨op, fieldOfReg rd, 0x00#8, len⟩ = .ok (k rd len) := by
  simp [decodeR0V, bind, Except.bind]

theorem decodeZ_fields (i : Instr) : decodeZ i ⟨op, 0x00#8, 0x00#8, 0x00#8⟩ = .ok i := rfl

end Formats

theorem decodeFields_fieldsOfInstr (i : Instr) : decodeFields (fieldsOfInstr i) = .ok i := by
  cases i
  case gfadd | gfmul | gfdiv => exact decodeR3_fields _ _ _ _ _
  case gfinv => exact decodeR2_fields _ _ _ _
  case ldi | ldc | ldx | ldy => exact decodeRI_fields _ _ _ _
  case stc | stx | sty => exact decodeSR_fields _ _ _ _
  case setc | setx | sety => exact decodeSI_fields _ _ _ _
  case eval | interp => exact decodeRV_fields _ _ _ _ _
  case interp0 => exact decodeR0V_fields _ _ _ _
  case nop | clrerr | wipe => exact decodeZ_fields _ _

/-- Settles O1: the fields of the encoded word are those of the command, and the decoder reads each format back. -/
theorem decodeOfEncodeIsTheCommand : Obligations.DecodeOfEncodeIsTheCommand := by
  intro i
  rw [decode, encode, fieldsOfWord_wordOfFields, decodeFields_fieldsOfInstr]

/-- Settles O2: the fields of a word that decodes are those of its command. -/
theorem encodeOfDecodeIsTheWord : Obligations.EncodeOfDecodeIsTheWord := fun _ _ => encode_of_decode

/-! When fields do not decode: the checks of a format (R65 (b) and (c)) said once, each decoder held to them, then
the opcode (R65 (a)). -/

/-- The fields pass the two checks of the format: its register numbers are at most 7 and its must-be-zero fields are
zero (R65 (b), (c)). -/
def Fields.Fits (x : Fields) (f : Format) : Prop :=
  (∀ r ∈ f.regFields x, r.toNat ≤ 7) ∧ ∀ z ∈ f.zeroFields x, z = 0x00#8

theorem Fields.wellFormed_iff {x : Fields} {f : Format} (hf : formatOf x.op = some f) :
    x.wellFormed = true ↔ x.Fits f := by
  simp [Fields.wellFormed, hf, Fields.regsInRange, Fields.zerosZero, Fields.Fits]

theorem Fields.not_wellFormed {x : Fields} (hf : formatOf x.op = none) : ¬ x.wellFormed = true := by
  simp [Fields.wellFormed, hf]

theorem regField_isOk_iff (v : BitVec 8) : (∃ r, regField v = .ok r) ↔ v.toNat ≤ 7 := by
  unfold regField
  split <;> simp <;> omega

section Fields
variable {v : BitVec 8} {P : Prop}

/-- A decoder that takes a register number and then succeeds under `P`, whatever the number. -/
theorem regField_bind_isOk_iff {k : Reg → Except IllegalWord Instr} (hk : ∀ r, (∃ i, k r = .ok i) ↔ P) :
    (∃ i, (regField v >>= k) = .ok i) ↔ v.toNat ≤ 7 ∧ P := by
  simp only [except_bind_ok_iff]
  rw [exists_comm]
  simp [hk, regField_isOk_iff]

/-- A decoder that takes a must-be-zero field and then succeeds under `P`. -/
theorem zeroField_bind_isOk_iff {k : Unit → Except IllegalWord Instr} (hk : ∀ u, (∃ i, k u = .ok i) ↔ P) :
    (∃ i, (zeroField v >>= k) = .ok i) ↔ v = 0x00#8 ∧ P := by
  simp only [except_bind_ok_iff]
  rw [exists_comm]
  simp [hk, zeroField_ok_iff]

theorem ok_isOk_iff (i : Instr) : (∃ j, (.ok i : Except IllegalWord Instr) = .ok j) ↔ True :=
  iff_true_intro ⟨i, rfl⟩

end Fields

section Formats
variable (x : Fields)

theorem decodeR3_isOk_iff (k : Reg → Reg → Reg → Instr) : (∃ i, decodeR3 k x = .ok i) ↔ x.Fits .r3 :=
  (regField_bind_isOk_iff fun _ => regField_bind_isOk_iff fun _ => regField_bind_isOk_iff fun _ => ok_isOk_iff _).trans
    (by simp [Fields.Fits, Format.regFields, Format.zeroFields])

theorem decodeR2_isOk_iff (k : Reg → Reg → Instr) : (∃ i, decodeR2 k x = .ok i) ↔ x.Fits .r2 :=
  (regField_bind_isOk_iff fun _ => regField_bind_isOk_iff fun _ => zeroField_bind_isOk_iff fun _ => ok_isOk_iff _).trans
    (by simp [Fields.Fits, Format.regFields, Format.zeroFields, and_assoc])

theorem decodeRI_isOk_iff (k : Reg → BitVec 8 → Instr) : (∃ i, decodeRI k x = .ok i) ↔ x.Fits .ri :=
  (regField_bind_isOk_iff fun _ => zeroField_bind_isOk_iff fun _ => ok_isOk_iff _).trans
    (by simp [Fields.Fits, Format.regFields, Format.zeroFields])

theorem decodeSR_isOk_iff (k : Index → Reg → Instr) : (∃ i, decodeSR k x = .ok i) ↔ x.Fits .sr :=
  (zeroField_bind_isOk_iff fun _ => regField_bind_isOk_iff fun _ => ok_isOk_iff _).trans
    (by simp [Fields.Fits, Format.regFields, Format.zeroFields, and_comm])

theorem decodeSI_isOk_iff (k : Index → Elem → Instr) : (∃ i, decodeSI k x = .ok i) ↔ x.Fits .si :=
  (zeroField_bind_isOk_iff fun _ => ok_isOk_iff _).trans (by simp [Fields.Fits, Format.regFields, Format.zeroFields])

theorem decodeRV_isOk_iff (k : Reg → Reg → Count → Instr) : (∃ i, decodeRV k x = .ok i) ↔ x.Fits .rv :=
  (regField_bind_isOk_iff fun _ => regField_bind_isOk_iff fun _ => ok_isOk_iff _).trans
    (by simp [Fields.Fits, Format.regFields, Format.zeroFields])

theorem decodeR0V_isOk_iff (k : Reg → Count → Instr) : (∃ i, decodeR0V k x = .ok i) ↔ x.Fits .r0v :=
  (regField_bind_isOk_iff fun _ => zeroField_bind_isOk_iff fun _ => ok_isOk_iff _).trans
    (by simp [Fields.Fits, Format.regFields, Format.zeroFields])

theorem decodeZ_isOk_iff (i : Instr) : (∃ j, decodeZ i x = .ok j) ↔ x.Fits .z :=
  (zeroField_bind_isOk_iff fun _ => zeroField_bind_isOk_iff fun _ => zeroField_bind_isOk_iff fun _ => ok_isOk_iff _).trans
    (by simp [Fields.Fits, Format.regFields, Format.zeroFields])

end Formats

theorem decodeFields_isOk_iff (x : Fields) : (∃ i, decodeFields x = .ok i) ↔ x.wellFormed = true := by
  obtain ⟨op, d, a, b⟩ := x
  simp only [decodeFields]
  split
  case h_1 | h_2 | h_4 => exact (decodeR3_isOk_iff _ _).trans (Fields.wellFormed_iff rfl).symm
  case h_3 => exact (decodeR2_isOk_iff _ _).trans (Fields.wellFormed_iff rfl).symm
  case h_5 => exact (decodeRI_isOk_iff _ _).trans (Fields.wellFormed_iff rfl).symm
  case h_6 | h_7 | h_8 => exact (decodeRI_isOk_iff _ _).trans (Fields.wellFormed_iff (f := .rl) rfl).symm
  case h_9 | h_10 | h_11 => exact (decodeSR_isOk_iff _ _).trans (Fields.wellFormed_iff rfl).symm
  case h_12 | h_13 | h_14 => exact (decodeSI_isOk_iff _ _).trans (Fields.wellFormed_iff rfl).symm
  case h_15 | h_17 => exact (decodeRV_isOk_iff _ _).trans (Fields.wellFormed_iff rfl).symm
  case h_16 => exact (decodeR0V_isOk_iff _ _).trans (Fields.wellFormed_iff rfl).symm
  case h_18 | h_19 | h_20 => exact (decodeZ_isOk_iff _ _).trans (Fields.wellFormed_iff rfl).symm
  case h_21 =>
    have hf : formatOf op = none := by simp_all [formatOf]
    simp [Fields.not_wellFormed (x := ⟨op, d, a, b⟩) hf]

theorem decode_isOk_iff (w : Word) : (∃ i, decode w = .ok i) ↔ (fieldsOfWord w).wellFormed = true :=
  decodeFields_isOk_iff _

theorem decode_error_iff (w : Word) : (∃ e, decode w = .error e) ↔ ¬ (fieldsOfWord w).wellFormed = true := by
  rw [← decode_isOk_iff]
  cases decode w <;> simp

theorem Fields.not_fits_iff (x : Fields) (f : Format) :
    ¬ x.Fits f ↔ (∃ r ∈ f.regFields x, 7 < r.toNat) ∨ ∃ z ∈ f.zeroFields x, z ≠ 0x00#8 := by
  simp [Fields.Fits, imp_iff_not_or]

theorem Fields.not_wellFormed_iff (x : Fields) : ¬ x.wellFormed = true ↔
    formatOf x.op = none ∨ ∃ f, formatOf x.op = some f ∧ ¬ x.Fits f := by
  cases hf : formatOf x.op with
  | none => simp [Fields.not_wellFormed hf]
  | some f => simp [Fields.wellFormed_iff hf]

/-! The masks of the formats (R61): masking a word masks each of its fields. -/

theorem fieldsOfWord_and (w v : Word) : fieldsOfWord (w &&& v) =
    { op := (fieldsOfWord w).op &&& (fieldsOfWord v).op, d := (fieldsOfWord w).d &&& (fieldsOfWord v).d,
      a := (fieldsOfWord w).a &&& (fieldsOfWord v).a, b := (fieldsOfWord w).b &&& (fieldsOfWord v).b } := by
  simp [fieldsOfWord, BitVec.extractLsb'_and]

theorem word_eq_iff_fieldsOfWord_eq (w v : Word) : w = v ↔ fieldsOfWord w = fieldsOfWord v :=
  ⟨congrArg _, fun h => by rw [← wordOfFields_fieldsOfWord w, h, wordOfFields_fieldsOfWord]⟩

/-- The five fixed bits of a register field are zero exactly when it is at most 7 (R62). -/
theorem and_regMask_eq_zero_iff (v : BitVec 8) : v &&& 0xF8#8 = 0x00#8 ↔ v.toNat ≤ 7 := by
  have hbits : v &&& 0xF8#8 = v >>> 3 <<< 3 := by
    ext i hi
    interval_cases i <;> simp
  rw [hbits]
  bv_omega

theorem fieldsOfWord_shiftLeft (op : BitVec 8) : fieldsOfWord (op.setWidth 32 <<< 24) = ⟨op, 0x00#8, 0x00#8, 0x00#8⟩ := by
  have h : (op.setWidth 32 <<< 24 : Word) = wordOfFields ⟨op, 0x00#8, 0x00#8, 0x00#8⟩ := by simp [wordOfFields]
  rw [h, fieldsOfWord_wordOfFields]

theorem and_mask_eq_iff (f : Format) (op : BitVec 8) (w : Word) :
    w &&& f.mask = op.setWidth 32 <<< 24 ↔ (fieldsOfWord w).op = op ∧ (fieldsOfWord w).Fits f := by
  rw [word_eq_iff_fieldsOfWord_eq, fieldsOfWord_and, fieldsOfWord_shiftLeft]
  have hones (v : BitVec 8) : v &&& 0xFF#8 = v := BitVec.and_allOnes
  cases f
  case sr =>
    simp [Format.mask, fieldsOfWord, Fields.Fits, Format.regFields, Format.zeroFields, hones, and_regMask_eq_zero_iff,
      and_comm]
  all_goals
    simp [Format.mask, fieldsOfWord, Fields.Fits, Format.regFields, Format.zeroFields, hones, and_regMask_eq_zero_iff,
      and_assoc]

theorem fieldsOfInstr_op (i : Instr) : (fieldsOfInstr i).op = i.opcode := by cases i <;> rfl

theorem fieldsOfInstr_of_decode {w : Word} {i : Instr} (h : decode w = .ok i) : fieldsOfInstr i = fieldsOfWord w :=
  fieldsOfInstr_of_decodeFields h

theorem opcode_of_decode {w : Word} {i : Instr} (h : decode w = .ok i) : i.opcode = (fieldsOfWord w).op := by
  rw [← fieldsOfInstr_op, fieldsOfInstr_of_decode h]

/-- Settles O4: both sides say that the word has the opcode and that its fields fit the format. -/
theorem maskAndMatchDecide : Obligations.MaskAndMatchDecide := by
  refine fun op f hf w => ⟨?_, fun i => fieldsOfInstr_of_decode⟩
  rw [and_mask_eq_iff]
  constructor
  · rintro ⟨rfl, hfits⟩
    obtain ⟨i, hi⟩ := (decode_isOk_iff w).mpr ((Fields.wellFormed_iff hf).mpr hfits)
    exact ⟨i, hi, opcode_of_decode hi⟩
  · rintro ⟨i, hi, rfl⟩
    have hop := opcode_of_decode hi
    exact ⟨hop.symm, (Fields.wellFormed_iff (hop ▸ hf)).mp ((decode_isOk_iff w).mp ⟨i, hi⟩)⟩

end Sys2Proof

namespace Sys2Proof.Machine

/-! What the words do when the block accepts them. -/

theorem raisesIllegal_of_error {w : Word} {e : IllegalWord} (h : decode w = .error e) : RaisesIllegal w := fun s hs =>
  ⟨_, (acceptWord_of_illegal h s).trans (unlessLatched_of_clear hs), raise_raised s _ _⟩

/-- Settles O3: the three ways are the three checks that make fields well-formed. -/
theorem illegalInExactlyThreeWays : Obligations.IllegalInExactlyThreeWays := by
  refine ⟨fun w => ?_, ?_, by decide, by decide⟩
  · simp only [← Fields.not_fits_iff]
    exact (decode_error_iff w).trans (Fields.not_wellFormed_iff _)
  · rintro w ⟨e, he⟩
    exact ⟨raisesIllegal_of_error he, fun s hs => (acceptWord_of_illegal he s).trans (unlessLatched_of_latched hs)⟩

/-- Settles O38: an illegal word is accepted as any word is; with no input the step is idle. -/
theorem stepOfIllegalWordAndIdleStep : Obligations.StepOfIllegalWordAndIdleStep := by
  refine ⟨?_, fun s hs => by rw [step, hs]⟩
  rintro w rest s hhost hclear ⟨e, he⟩
  rw [step_of_host_cons hhost]
  exact raisesIllegal_of_error he _ hclear

/-- Settles O5: the decoder evaluated on each of the ten words. -/
theorem sampleWordsDecode : Obligations.SampleWordsDecode := by
  unfold Obligations.SampleWordsDecode
  decide

end Sys2Proof.Machine
end

section
/-!
PROOFS. The pseudo-instructions (30_encoding.md R69): what the commands they expand to do, run one after another.
-/
namespace Sys2Proof.Machine

/-! The product by the element 0x01 (40_field_arithmetic.md R81): no bit of it lies above the seventh, so nothing is
reduced. -/

theorem productBit_one_left (a : Elem) (k : Nat) : productBit 0x01#8 a k = a.getLsbD k := by
  simp [productBit, List.range_succ]

theorem carrylessProduct_getLsbD (a b : Elem) {k : Nat} (hk : k < 15) :
    (carrylessProduct a b).getLsbD k = productBit a b k := by
  have hfold (n : Nat) : ((List.range n).foldl
      (fun p k => if productBit a b k then p ||| (1#15 <<< k) else p) 0#15).getLsbD k =
        (decide (k < n) && productBit a b k) := by
    induction n with
    | zero => simp
    | succ n ih =>
      rw [List.range_succ, List.foldl_append, List.foldl_cons, List.foldl_nil]
      split
      · next hn =>
        rw [BitVec.getLsbD_or, ih]
        rcases eq_or_ne k n with rfl | h
        · simp [hk, hn]
        · simp; grind
      · rw [ih]; grind
  rw [carrylessProduct, hfold, decide_eq_true hk, Bool.true_and]

theorem gfMul_one_left (a : Elem) : gfMul 0x01#8 a = a := by
  have hp : carrylessProduct 0x01#8 a = a.setWidth 15 := by
    apply BitVec.eq_of_getLsbD_eq
    intro k hk
    rw [carrylessProduct_getLsbD _ _ hk, productBit_one_left, BitVec.getLsbD_setWidth, decide_eq_true hk, Bool.true_and]
  have hlow : (a.setWidth 15).extractLsb' 0 8 = a := by
    ext i hi
    simp [hi, show i < 15 by omega]
  simpa [gfMul, hp, reduceBit] using hlow

/-! One command after another. -/

theorem exec_gfadd_of_clear (rd rs1 rs2 : Reg) {s : State} (hs : s.status.err = false) :
    exec (.gfadd rd rs1 rs2) s = .next (s.setReg rd (gfAdd (s.reg rs1) (s.reg rs2))) := by
  simp [exec, execGfadd, unlessLatched_of_clear hs]

theorem exec_gfmul_of_clear (rd rs1 rs2 : Reg) {s : State} (hs : s.status.err = false) :
    exec (.gfmul rd rs1 rs2) s = .next (s.setReg rd (gfMul (s.reg rs1) (s.reg rs2))) := by
  simp [exec, execGfmul, unlessLatched_of_clear hs]

theorem exec_ldi_of_clear (rd : Reg) (v : Elem) {s : State} (hs : s.status.err = false) :
    exec (.ldi rd v) s = .next (s.setReg rd v) := by
  simp [exec, execLdi, unlessLatched_of_clear hs]

theorem execAll_cons {i : Instr} {s t : State} (h : exec i s = .next t) (is : List Instr) :
    execAll (i :: is) s = execAll is t := by
  rw [execAll, h]

@[simp] theorem State.setReg_setReg (s : State) (r : Reg) (v w : Elem) : (s.setReg r v).setReg r w = s.setReg r w := by
  simp [State.setReg]

theorem gfAdd_gfAdd_cancel (a b : Elem) : gfAdd (gfAdd a b) b = a := by
  rw [gfAdd, gfAdd, BitVec.xor_assoc, BitVec.xor_self, BitVec.xor_zero]

/-- Settles O55: each expansion ends in one write to `rd`; the first command of MOV is overwritten by its second. -/
theorem pseudoInstructionsAreRight : Obligations.PseudoInstructionsAreRight := by
  refine ⟨fun rd rs1 rs2 => ⟨rfl, fun s hs => ?_⟩, fun rd rs => ⟨rfl, fun s hs => ?_⟩, fun rd => ⟨rfl, fun s hs => ?_⟩,
    fun rd rs hne => ⟨if_neg hne, fun s hs => ?_⟩, fun rd => if_pos rfl⟩
  · refine ⟨_, execAll_cons (exec_gfadd_of_clear rd rs1 rs2 hs) [], ?_, setReg_onlyReg s rd _⟩
    rw [State.reg_setReg_same, gfAdd_gfAdd_cancel]
  · refine ⟨_, execAll_cons (exec_gfmul_of_clear rd rs rs hs) [], ?_, setReg_onlyReg s rd _⟩
    simp [gfPow, gfMul_one_left]
  · exact ⟨_, execAll_cons (exec_ldi_of_clear rd 0x00#8 hs) [], State.reg_setReg_same s rd _, setReg_onlyReg s rd _⟩
  · have hsum : gfAdd ((s.setReg rd 0x00#8).reg rd) ((s.setReg rd 0x00#8).reg rs) = s.reg rs := by
      rw [State.reg_setReg_same, State.reg_setReg_ne _ _ _ hne.symm, gfAdd, BitVec.zero_xor]
    have hs' : (s.setReg rd 0x00#8).status.err = false := hs
    refine ⟨s.setReg rd (s.reg rs), ?_, State.reg_setReg_same s rd _, setReg_onlyReg s rd _⟩
    rw [execAll_cons (exec_ldi_of_clear rd 0x00#8 hs), execAll_cons (exec_gfadd_of_clear rd rd rs hs'), hsum,
      State.setReg_setReg, execAll]

end Sys2Proof.Machine
end

section
/-!
PROOFS. The assembly text (30_encoding.md R68): the printed line of a command is cut back into its mnemonic and its
operands, and these name the command.
-/
namespace Sys2Proof.Machine

/-- The text has no character that ends or separates a word of an assembly line: space, comma, semicolon. -/
def IsWordText (cs : List Char) : Prop := ∀ c ∈ cs, c ≠ ' ' ∧ c ≠ ',' ∧ c ≠ ';'

theorem isWordText_mnemonicOf (i : Instr) : IsWordText (mnemonicOf i).toList := by
  cases i <;> simp [IsWordText, mnemonicOf]

theorem mnemonicOf_ne_nil (i : Instr) : (mnemonicOf i).toList ≠ [] := by
  cases i <;> simp [mnemonicOf]

theorem isWordText_digits : IsWordText digits := by
  have hall : digits.all (fun c => decide (c ≠ ' ' ∧ c ≠ ',' ∧ c ≠ ';')) = true := by decide +kernel
  simpa [IsWordText, List.all_eq_true] using hall

theorem hexDigit_mem_digits (n : Nat) : hexDigit n ∈ digits := by
  rcases lt_or_ge n digits.length with h | h
  · rw [hexDigit, List.getD_eq_getElem _ _ h]
    exact List.getElem_mem h
  · rw [hexDigit, List.getD_eq_default _ _ h]
    decide +kernel

theorem isWordText_printOperand (o : AsmOperand) : IsWordText (printOperand o) := by
  have hdigit (n : Nat) := isWordText_digits _ (hexDigit_mem_digits n)
  cases o <;> simp [printOperand, IsWordText, hdigit]

theorem printOperand_ne_nil (o : AsmOperand) : printOperand o ≠ [] := by
  cases o <;> simp [printOperand]

/-- The text after the mnemonic: nothing, or a space and the operands (`printInstr_eq`). -/
def operandsText : List AsmOperand → List Char
  | [] => []
  | o :: os => ' ' :: printOperands (o :: os)

theorem printInstr_eq (i : Instr) : printInstr i = (mnemonicOf i).toList ++ operandsText (asmOperandsOf i) := by
  unfold printInstr
  cases asmOperandsOf i <;> simp [operandsText]

@[simp] theorem operandsText_singleton (o : AsmOperand) : operandsText [o] = ' ' :: printOperand o := rfl

@[simp] theorem operandsText_cons_cons (o p : AsmOperand) (os : List AsmOperand) :
    operandsText (o :: p :: os) = ' ' :: printOperand o ++ ',' :: operandsText (p :: os) := by
  simp [operandsText, printOperands]

/-! Cutting at commas gives the operands back. -/

theorem splitAtCommas_ne_nil (cs : List Char) : splitAtCommas cs ≠ [] := by
  cases cs with
  | nil => simp [splitAtCommas]
  | cons c cs => rw [splitAtCommas]; grind

theorem splitAtCommas_comma (cs : List Char) : splitAtCommas (',' :: cs) = [] :: splitAtCommas cs := by
  rw [splitAtCommas]
  cases h : splitAtCommas cs with
  | nil => exact absurd h (splitAtCommas_ne_nil cs)
  | cons w ws => simp

theorem splitAtCommas_of_no_comma {w : List Char} (hw : ∀ c ∈ w, c ≠ ',') : splitAtCommas w = [w] := by
  induction w with
  | nil => rfl
  | cons c w ih =>
    obtain ⟨hc, hw⟩ := List.forall_mem_cons.mp hw
    simp [splitAtCommas, ih hw, hc]

theorem splitAtCommas_append_comma {w : List Char} (hw : ∀ c ∈ w, c ≠ ',') (cs : List Char) :
    splitAtCommas (w ++ ',' :: cs) = w :: splitAtCommas cs := by
  induction w with
  | nil => exact splitAtCommas_comma cs
  | cons c w ih =>
    obtain ⟨hc, hw⟩ := List.forall_mem_cons.mp hw
    simp [splitAtCommas, ih hw, hc]

theorem spacedOperand_no_comma (o : AsmOperand) : ∀ c ∈ ' ' :: printOperand o, c ≠ ',' :=
  List.forall_mem_cons.mpr ⟨by decide, fun c hc => (isWordText_printOperand o c hc).2.1⟩

theorem splitAtCommas_operandsText (o : AsmOperand) (os : List AsmOperand) :
    splitAtCommas (operandsText (o :: os)) = (o :: os).map fun p => ' ' :: printOperand p := by
  induction os generalizing o with
  | nil => exact splitAtCommas_of_no_comma (spacedOperand_no_comma o)
  | cons p os ih =>
    rw [operandsText_cons_cons, splitAtCommas_append_comma (spacedOperand_no_comma o), ih]
    rfl

theorem readOperands_operandsText (os : List AsmOperand) : readOperands (operandsText os) = some os := by
  cases os with
  | nil => rfl
  | cons o os =>
    have hread : (readSpacedOperand ∘ fun p => ' ' :: printOperand p) = pure := funext readOperand_printOperand
    have hcons : (operandsText (o :: os)).isEmpty = false := rfl
    rw [readOperands, hcons, splitAtCommas_operandsText, List.mapM_map, hread, List.mapM_pure]
    simp

/-! A printed line has no comment and no space at its ends. -/

theorem stripLine_eq_self {line : List Char} (hsemicolon : ∀ c ∈ line, c ≠ ';') (hhead : ∀ c ∈ line.head?, c ≠ ' ')
    (hlast : ∀ c ∈ line.getLast?, c ≠ ' ') : stripLine line = line := by
  have hcomment : line.takeWhile (· != ';') = line := List.takeWhile_eq_self_iff.mpr (by simpa using hsemicolon)
  have hleft : line.dropWhile (· == ' ') = line := by
    cases line with
    | nil => rfl
    | cons c cs => simpa using hhead
  have hright : line.rdropWhile (· == ' ') = line := by
    rw [List.rdropWhile_eq_self_iff]
    intro hl
    simpa using hlast _ (List.getLast?_eq_getLast_of_ne_nil hl)
  rw [stripLine, hcomment, hleft]
  exact hright

theorem operandsText_no_semicolon (os : List AsmOperand) : ∀ c ∈ operandsText os, c ≠ ';' := by
  induction os with
  | nil => simp [operandsText]
  | cons o os ih =>
    have ho : ∀ c ∈ printOperand o, c ≠ ';' := fun c hc => (isWordText_printOperand o c hc).2.2
    cases os with
    | nil => exact List.forall_mem_cons.mpr ⟨by decide, ho⟩
    | cons p os =>
      rw [operandsText_cons_cons]
      exact List.forall_mem_append.mpr
        ⟨List.forall_mem_cons.mpr ⟨by decide, ho⟩, List.forall_mem_cons.mpr ⟨by decide, ih⟩⟩

theorem operandsText_ends_in_operand (o : AsmOperand) (os : List AsmOperand) :
    ∃ start last, operandsText (o :: os) = start ++ printOperand last := by
  induction os generalizing o with
  | nil => exact ⟨[' '], o, rfl⟩
  | cons p os ih =>
    obtain ⟨start, last, h⟩ := ih p
    exact ⟨' ' :: printOperand o ++ ',' :: start, last, by simp [h]⟩

/-- A printed line ends in the word of its mnemonic or of its last operand. -/
theorem printInstr_ends_in_word (i : Instr) : ∃ start w, printInstr i = start ++ w ∧ w ≠ [] ∧ IsWordText w := by
  rw [printInstr_eq]
  cases asmOperandsOf i with
  | nil => exact ⟨[], _, by simp [operandsText], mnemonicOf_ne_nil i, isWordText_mnemonicOf i⟩
  | cons o os =>
    obtain ⟨start, last, h⟩ := operandsText_ends_in_operand o os
    exact ⟨(mnemonicOf i).toList ++ start, _, by rw [h, List.append_assoc], printOperand_ne_nil last,
      isWordText_printOperand last⟩

theorem stripLine_printInstr (i : Instr) : stripLine (printInstr i) = printInstr i := by
  apply stripLine_eq_self
  · rw [printInstr_eq]
    exact List.forall_mem_append.mpr
      ⟨fun c hc => (isWordText_mnemonicOf i c hc).2.2, operandsText_no_semicolon _⟩
  · intro c hc
    rw [printInstr_eq, List.head?_append_of_ne_nil _ (mnemonicOf_ne_nil i)] at hc
    exact (isWordText_mnemonicOf i c (List.mem_of_mem_head? hc)).1
  · intro c hc
    obtain ⟨start, w, heq, hne, hw⟩ := printInstr_ends_in_word i
    rw [heq, List.getLast?_append_of_ne_nil _ hne] at hc
    exact (hw c (List.mem_of_mem_getLast? hc)).1

theorem mnemonicOf_ne_space (i : Instr) : ∀ c ∈ (mnemonicOf i).toList, (c != ' ') = true := by
  simpa using fun c hc => (isWordText_mnemonicOf i c hc).1

theorem takeWhile_printInstr (i : Instr) : (printInstr i).takeWhile (· != ' ') = (mnemonicOf i).toList := by
  rw [printInstr_eq, List.takeWhile_append_of_pos (mnemonicOf_ne_space i)]
  cases asmOperandsOf i <;> simp [operandsText]

theorem dropWhile_printInstr (i : Instr) : (printInstr i).dropWhile (· != ' ') = operandsText (asmOperandsOf i) := by
  rw [printInstr_eq, List.dropWhile_append_of_pos (mnemonicOf_ne_space i)]
  cases asmOperandsOf i <;> simp [operandsText]

theorem commandOf_printed (i : Instr) : commandOf (mnemonicOf i).toList (asmOperandsOf i) = some i := by
  cases i <;> simp [mnemonicOf, asmOperandsOf, commandOf]

theorem assembleLine_printInstr (i : Instr) : assembleLine (printInstr i) = some [i] := by
  have hne : (printInstr i).isEmpty = false := by
    rw [printInstr_eq, List.isEmpty_eq_false_iff]
    exact List.append_ne_nil_of_left_ne_nil (mnemonicOf_ne_nil i) _
  simp [assembleLine, stripLine_printInstr, hne, dropWhile_printInstr, takeWhile_printInstr, readOperands_operandsText,
    commandOf_printed]

/-- Settles O56: the printed line is cut back into the mnemonic and the operands, and these name the command. -/
theorem assemblyRoundTrip : Obligations.AssemblyRoundTrip := fun i =>
  ⟨assembleLine_printInstr i, by simp [assembleProgram, assembleLine_printInstr]⟩

end Sys2Proof.Machine
end

section
/-!
PROOFS. Multiplication (40_field_arithmetic.md R81, R82): elements are read as polynomials over GF(2), and the
multiplier and its bit-serial realisation are followed in the ring of residues modulo x^8 + x^4 + x^3 + x + 1.
-/
namespace Sys2Proof.Machine
open Polynomial

/-! Bit values as elements of GF(2), and bit vectors as polynomials over it (00_scope.md R7). -/

/-- The value of a bit in GF(2). -/
def bitValue (b : Bool) : ZMod 2 := if b then 1 else 0

@[simp] theorem bitValue_false : bitValue false = 0 := rfl
@[simp] theorem bitValue_true : bitValue true = 1 := rfl

theorem bitValue_xor (x y : Bool) : bitValue (x ^^ y) = bitValue x + bitValue y := by
  revert x y; decide

theorem bitValue_injective : Function.Injective bitValue := by
  unfold Function.Injective; decide

theorem bitValue_foldl_xor (f : Nat → Bool) (n : Nat) :
    bitValue ((List.range n).foldl (fun acc i => acc ^^ f i) false) = ∑ i ∈ Finset.range n, bitValue (f i) := by
  induction n with
  | zero => rfl
  | succ n ih => simp [List.range_succ, Finset.sum_range_succ, bitValue_xor, ih]

/-- The polynomial of a bit vector, bit `i` the coefficient of x^i. -/
noncomputable def bitPoly {n : Nat} (p : BitVec n) : (ZMod 2)[X] :=
  ∑ i ∈ Finset.range n, if p.getLsbD i then X ^ i else 0

@[simp] theorem coeff_bitPoly {n : Nat} (p : BitVec n) (k : Nat) : (bitPoly p).coeff k = bitValue (p.getLsbD k) := by
  have hterm (i : Nat) : (if p.getLsbD i then (X : (ZMod 2)[X]) ^ i else 0).coeff k =
      if k = i then bitValue (p.getLsbD k) else 0 := by
    split <;> split <;> simp_all [coeff_X_pow]
  simp only [bitPoly, finsetSum_coeff, hterm, Finset.sum_ite_eq, Finset.mem_range]
  split
  · rfl
  · next hk => rw [BitVec.getLsbD_of_ge p k (by omega), bitValue_false]

theorem bitPoly_xor {n : Nat} (p q : BitVec n) : bitPoly (p ^^^ q) = bitPoly p + bitPoly q := by
  ext k
  simp [bitValue_xor]

theorem bitPoly_injective {n : Nat} : Function.Injective (bitPoly : BitVec n → (ZMod 2)[X]) := by
  intro p q h
  refine BitVec.eq_of_getLsbD_eq fun k _ => bitValue_injective ?_
  simpa using congrArg (coeff · k) h

theorem degree_bitPoly_lt {n : Nat} (p : BitVec n) : (bitPoly p).degree < n := by
  refine (degree_lt_iff_coeff_zero _ _).mpr fun k hk => ?_
  rw [coeff_bitPoly, BitVec.getLsbD_of_ge p k hk, bitValue_false]

/-! The product over GF(2) and its reduction (40_field_arithmetic.md R81). -/

theorem bitValue_productBit (a b : Elem) (k : Nat) :
    bitValue (productBit a b k) = (bitPoly a * bitPoly b).coeff k := by
  rw [productBit, bitValue_foldl_xor, bitPoly, Finset.sum_mul, finsetSum_coeff]
  refine Finset.sum_congr rfl fun i _ => ?_
  cases ha : a.getLsbD i <;> by_cases hk : i ≤ k <;> simp [hk, coeff_X_pow_mul']

theorem bitPoly_carrylessProduct (a b : Elem) : bitPoly (carrylessProduct a b) = bitPoly a * bitPoly b := by
  ext k
  rw [coeff_bitPoly, ← bitValue_productBit]
  by_cases hk : k < 15
  · rw [carrylessProduct_getLsbD a b hk]
  · rw [BitVec.getLsbD_of_ge _ k (by omega), productBit, bitValue_foldl_xor]
    refine (Finset.sum_eq_zero fun i hi => ?_).symm
    have hi8 : i < 8 := Finset.mem_range.mp hi
    simp [BitVec.getLsbD_of_ge b (k - i) (by omega)]

/-- The reduction polynomial x^8 + x^4 + x^3 + x + 1 (R81). -/
noncomputable def reductionPoly : (ZMod 2)[X] := X ^ 8 + X ^ 4 + X ^ 3 + X + 1

theorem degree_reductionPoly : reductionPoly.degree = 8 := by
  unfold reductionPoly
  compute_degree!

theorem bitPoly_redPoly : bitPoly Config.redPoly = reductionPoly := by
  simp [bitPoly, reductionPoly, Config.redPoly, Finset.sum_range_succ, add_comm, ← add_assoc]

/-- A shift that loses no bit multiplies by a power of x. -/
theorem bitPoly_setWidth_shiftLeft {n m : Nat} (p : BitVec n) {j : Nat} (h : n + j ≤ m) :
    bitPoly (p.setWidth m <<< j) = X ^ j * bitPoly p := by
  ext k
  rw [coeff_bitPoly, coeff_X_pow_mul', coeff_bitPoly, BitVec.getLsbD_shiftLeft, BitVec.getLsbD_setWidth]
  by_cases hjk : j ≤ k
  · by_cases hkm : k < m
    · simp [hjk, hkm, show k - j < m by omega, show ¬ k < j by omega]
    · simp [hjk, hkm, BitVec.getLsbD_of_ge p (k - j) (by omega)]
  · simp [hjk, show k < j by omega]

/-- The residue of a bit vector's polynomial modulo x^8 + x^4 + x^3 + x + 1. -/
noncomputable def residue {n : Nat} (p : BitVec n) : AdjoinRoot reductionPoly := AdjoinRoot.mk reductionPoly (bitPoly p)

theorem residue_eq_residue_iff {n m : Nat} (p : BitVec n) (q : BitVec m) :
    residue p = residue q ↔ reductionPoly ∣ bitPoly p - bitPoly q := AdjoinRoot.mk_eq_mk

theorem residue_xor {n : Nat} (p q : BitVec n) : residue (p ^^^ q) = residue p + residue q := by
  rw [residue, bitPoly_xor, map_add, residue, residue]

theorem residue_injective : Function.Injective (residue : Elem → AdjoinRoot reductionPoly) := by
  intro a b h
  refine bitPoly_injective (sub_eq_zero.mp (eq_zero_of_dvd_of_degree_lt ((residue_eq_residue_iff a b).mp h) ?_))
  rw [degree_reductionPoly]
  exact (degree_sub_le _ _).trans_lt (max_lt (degree_bitPoly_lt a) (degree_bitPoly_lt b))

theorem residue_reduceBit (p : BitVec 15) {k : Nat} (hk : k ≤ 14) : residue (reduceBit p k) = residue p := by
  unfold reduceBit
  split
  · rw [residue_xor, residue, residue, bitPoly_setWidth_shiftLeft Config.redPoly (show 9 + (k - 8) ≤ 15 by omega),
      bitPoly_redPoly, map_mul, AdjoinRoot.mk_self, mul_zero, add_zero]
  · rfl

/-- The step for bit `k` clears it and sets none above it. -/
theorem getLsbD_reduceBit {p : BitVec 15} {k i : Nat} (hk : 8 ≤ k) (hp : ∀ j, k < j → p.getLsbD j = false)
    (hi : k ≤ i) : (reduceBit p k).getLsbD i = false := by
  unfold reduceBit
  split
  · next hset =>
    rw [BitVec.getLsbD_xor, BitVec.getLsbD_shiftLeft, BitVec.getLsbD_setWidth]
    rcases hi.eq_or_lt with rfl | hlt
    · have h15 : k < 15 := BitVec.lt_of_getLsbD hset
      simp [hset, h15, show ¬ k < k - 8 by omega, show k - (k - 8) = 8 by omega, Config.redPoly]
    · simp [hp i hlt, BitVec.getLsbD_of_ge Config.redPoly (i - (k - 8)) (by omega)]
  · next hclear =>
    rcases hi.eq_or_lt with rfl | hlt
    · simpa using hclear
    · exact hp i hlt

/-- The first `n` steps of the reduction, from bit 14 down. -/
def reduceBits (p : BitVec 15) : Nat → BitVec 15
  | 0 => p
  | n + 1 => reduceBit (reduceBits p n) (14 - n)

theorem residue_reduceBits (p : BitVec 15) (n : Nat) : residue (reduceBits p n) = residue p := by
  induction n with
  | zero => rfl
  | succ n ih => exact (residue_reduceBit _ (by omega)).trans ih

theorem getLsbD_reduceBits (p : BitVec 15) {n i : Nat} (hn : n ≤ 7) (hi : 15 - n ≤ i) :
    (reduceBits p n).getLsbD i = false := by
  induction n generalizing i with
  | zero => exact BitVec.getLsbD_of_ge p i hi
  | succ n ih => exact getLsbD_reduceBit (by omega) (fun j hj => ih (by omega) (by omega)) (by omega)

theorem bitPoly_extractLsb'_low {p : BitVec 15} (hp : ∀ i, 8 ≤ i → p.getLsbD i = false) :
    bitPoly (p.extractLsb' 0 8) = bitPoly p := by
  ext k
  rw [coeff_bitPoly, coeff_bitPoly, BitVec.getLsbD_extractLsb', Nat.zero_add]
  by_cases hk : k < 8
  · simp [hk]
  · simp [hk, hp k (by omega)]

@[simp] theorem residue_gfMul (a b : Elem) : residue (gfMul a b) = residue a * residue b := by
  have hlow : bitPoly (gfMul a b) = bitPoly (reduceBits (carrylessProduct a b) 7) :=
    bitPoly_extractLsb'_low fun _ hi => getLsbD_reduceBits _ le_rfl hi
  calc residue (gfMul a b) = residue (reduceBits (carrylessProduct a b) 7) := congrArg (AdjoinRoot.mk _) hlow
    _ = residue (carrylessProduct a b) := residue_reduceBits _ 7
    _ = residue a * residue b := by rw [residue, bitPoly_carrylessProduct, map_mul, residue, residue]

@[simp] theorem residue_gfAdd (a b : Elem) : residue (gfAdd a b) = residue a + residue b := residue_xor a b

/-- Settles O6: `gf_mul` keeps the residue of the product, and no two elements have the same residue. -/
theorem mulIsThePolynomialProductModulo : Obligations.MulIsThePolynomialProductModulo := by
  intro a b c
  change c = gfMul a b ↔ reductionPoly ∣ bitPoly a * bitPoly b - bitPoly c
  calc c = gfMul a b ↔ residue a * residue b = residue c := by
        rw [← residue_gfMul, residue_injective.eq_iff, eq_comm]
    _ ↔ reductionPoly ∣ bitPoly a * bitPoly b - bitPoly c := by
        rw [residue, residue, residue, ← map_mul, AdjoinRoot.mk_eq_mk]

/-! The bit-serial multiplier (R82). -/

@[simp] theorem residue_zero {n : Nat} : residue 0#n = 0 := by
  simp [residue, bitPoly]

@[simp] theorem residue_one : residue 0x01#8 = 1 := by
  simp [residue, bitPoly]

theorem residue_two : residue 0x02#8 = AdjoinRoot.root reductionPoly := by
  simp [residue, bitPoly, Finset.sum_range_succ]

theorem residue_setWidth {n m : Nat} (p : BitVec n) (h : n ≤ m) : residue (p.setWidth m) = residue p := by
  rw [residue, residue, ← BitVec.shiftLeft_zero (p.setWidth m), bitPoly_setWidth_shiftLeft p (by simpa using h),
    pow_zero, one_mul]

theorem residue_redPoly : residue Config.redPoly = 0 := by
  rw [residue, bitPoly_redPoly, AdjoinRoot.mk_self]

/-- Shifting an element up by one bit: its doubled value, and the reduction polynomial where bit 7 moved out. -/
theorem setWidth_shiftLeft_one (a : Elem) :
    a.setWidth 9 <<< 1 = (xtime a).setWidth 9 ^^^ (if a.getLsbD 7 then Config.redPoly else 0#9) := by
  ext i hi
  cases h7 : a.getLsbD 7 <;> interval_cases i <;> simp_all [xtime, rep8, Config.redPoly, Config.redLow]

@[simp] theorem residue_xtime (a : Elem) : residue (xtime a) = AdjoinRoot.root reductionPoly * residue a := by
  have hshift : residue (a.setWidth 9 <<< 1) = AdjoinRoot.root reductionPoly * residue a := by
    rw [residue, bitPoly_setWidth_shiftLeft a (by omega), pow_one, map_mul, AdjoinRoot.mk_X, residue]
  rw [← hshift, setWidth_shiftLeft_one, residue_xor, residue_setWidth _ (by omega)]
  split <;> simp [residue_redPoly]

@[simp] theorem residue_and_rep8 (a : Elem) (x : Bool) : residue (a &&& rep8 x) = if x then residue a else 0 := by
  cases x
  · simp [rep8]
  · exact congrArg residue BitVec.and_allOnes

theorem residue_eq_low_add (b : Elem) :
    residue b = (if b.getLsbD 0 then 1 else 0) + AdjoinRoot.root reductionPoly * residue (b >>> 1) := by
  have hpoly : bitPoly b = C (bitValue (b.getLsbD 0)) + X * bitPoly (b >>> 1) := by
    ext k
    cases k with
    | zero => simp
    | succ k => simp [coeff_X_mul, Nat.add_comm 1 k]
  rw [residue, hpoly, map_add, map_mul, AdjoinRoot.mk_X, residue]
  cases b.getLsbD 0 <;> simp

/-- What the loop keeps: the accumulator and the product of what is left of the operands. -/
noncomputable def MulTemps.total (t : MulTemps) : AdjoinRoot reductionPoly :=
  residue t.acc + residue t.aa * residue t.bb

theorem total_mulIteration (t : MulTemps) : (mulIteration t).total = t.total := by
  simp only [MulTemps.total, mulIteration, residue_xor, residue_and_rep8, residue_xtime]
  rw [residue_eq_low_add t.bb]
  split <;> ring

theorem mulIterations_spec (t : MulTemps) (n : Nat) :
    ((List.range n).foldl (fun t _ => mulIteration t) t).total = t.total ∧
      ((List.range n).foldl (fun t _ => mulIteration t) t).bb = t.bb >>> n := by
  induction n with
  | zero => simp
  | succ n ih =>
    obtain ⟨htotal, hbb⟩ := ih
    rw [List.range_succ, List.foldl_append, List.foldl_cons, List.foldl_nil, total_mulIteration]
    exact ⟨htotal, by rw [mulIteration, hbb, BitVec.shiftRight_add]⟩

theorem residue_gfMulSerial (a b : Elem) : residue (gfMulSerial a b) = residue a * residue b := by
  obtain ⟨htotal, hbb⟩ := mulIterations_spec ⟨0x00#8, a, b⟩ 8
  have hdone : b >>> 8 = 0x00#8 := by bv_omega
  simpa [MulTemps.total, hbb, hdone, gfMulSerial] using htotal

/-- Settles O7: the loop keeps accumulator plus product, and after eight iterations nothing is left to multiply. -/
theorem serialMultiplierAgrees : Obligations.SerialMultiplierAgrees :=
  ⟨fun a b => residue_injective (by rw [residue_gfMulSerial, residue_gfMul]),
   fun a => residue_injective (by rw [residue_xtime, residue_gfMul, residue_two, mul_comm])⟩

end Sys2Proof.Machine
end

section
/-!
PROOFS. The field (40_field_arithmetic.md R83 to R86): its laws, its powers, the inverse and division.
-/
namespace Sys2Proof.Machine

/-! The laws of the field (R83), each read off the ring of residues. -/

theorem gfAdd_assoc (a b c : Elem) : gfAdd (gfAdd a b) c = gfAdd a (gfAdd b c) := BitVec.xor_assoc a b c

theorem gfAdd_comm (a b : Elem) : gfAdd a b = gfAdd b a := BitVec.xor_comm a b

theorem gfMul_assoc (a b c : Elem) : gfMul (gfMul a b) c = gfMul a (gfMul b c) :=
  residue_injective (by simp [mul_assoc])

theorem gfMul_comm (a b : Elem) : gfMul a b = gfMul b a := residue_injective (by simp [mul_comm])

theorem gfMul_gfAdd (a b c : Elem) : gfMul a (gfAdd b c) = gfAdd (gfMul a b) (gfMul a c) :=
  residue_injective (by simp [mul_add])

@[simp] theorem gfMul_one (a : Elem) : gfMul a 0x01#8 = a := by rw [gfMul_comm, gfMul_one_left]

@[simp] theorem gfMul_zero (a : Elem) : gfMul a 0x00#8 = 0x00#8 := residue_injective (by simp)

@[simp] theorem gfMul_zero_left (a : Elem) : gfMul 0x00#8 a = 0x00#8 := by rw [gfMul_comm, gfMul_zero]

/-! Powers (R83, R85). -/

@[simp] theorem residue_gfPow (a : Elem) (n : Nat) : residue (gfPow a n) = residue a ^ n := by
  induction n with
  | zero => simp [gfPow]
  | succ n ih => rw [gfPow, residue_gfMul, ih, pow_succ]

theorem chain_eq_gfPow (a : Elem) (k : Nat) :
    (List.range k).foldl (fun r _ => gfMul (gfMul r r) a) a = gfPow a (2 ^ (k + 1) - 1) := by
  induction k with
  | zero => simp [gfPow, gfMul_one_left]
  | succ k ih =>
    have hexp : 2 ^ (k + 1 + 1) - 1 = (2 ^ (k + 1) - 1) + (2 ^ (k + 1) - 1) + 1 := by
      have := Nat.one_le_two_pow (n := k + 1)
      omega
    rw [List.range_succ, List.foldl_append, List.foldl_cons, List.foldl_nil, ih, hexp]
    exact residue_injective (by simp only [residue_gfMul, residue_gfPow, pow_succ, pow_add])

theorem inverterChain_eq_gfPow (a : Elem) : inverterChain a = gfPow a Config.invExp := by
  rw [inverterChain, chain_eq_gfPow]
  apply residue_injective
  simp [Config.invExp, ← pow_add]

/-- Settles O10: each double step takes the exponent e to 2e + 1, for any number of steps. -/
theorem inverterChainComputesPowers : Obligations.InverterChainComputesPowers :=
  fun a => ⟨fun k _ => chain_eq_gfPow a k, inverterChain_eq_gfPow a⟩

/-! The non-zero elements are the powers of 0x03, which has order 255 (R83). -/

theorem gfPow_gfPow (a : Elem) (m n : Nat) : gfPow (gfPow a m) n = gfPow a (m * n) :=
  residue_injective (by simp [pow_mul])

/-- The element 0x03, a generator of the multiplicative group. -/
def fieldGenerator : Elem := 0x03#8

theorem gfPow_fieldGenerator_255 : gfPow fieldGenerator 255 = 0x01#8 := by
  rw [← gfPow_gfPow fieldGenerator 15 17]
  decide +kernel

theorem gfPow_fieldGenerator_ne_one {p : Nat} (hp : p = 3 ∨ p = 5 ∨ p = 17) :
    gfPow fieldGenerator (255 / p) ≠ 0x01#8 := by
  rcases hp with rfl | rfl | rfl
  · rw [show 255 / 3 = 5 * 17 by rfl, ← gfPow_gfPow]
    decide +kernel
  · rw [show 255 / 5 = 3 * 17 by rfl, ← gfPow_gfPow]
    decide +kernel
  · decide +kernel

theorem residue_pow_eq_one_iff (a : Elem) (n : Nat) : residue a ^ n = 1 ↔ gfPow a n = 0x01#8 := by
  rw [← residue_gfPow, ← residue_one, residue_injective.eq_iff]

/-- The primes of 255 are 3, 5 and 17, and no power by 255 over one of them is 0x01. -/
theorem orderOf_fieldGenerator : orderOf (residue fieldGenerator) = 255 := by
  refine orderOf_eq_of_pow_and_pow_div_prime (by omega) ((residue_pow_eq_one_iff ..).mpr gfPow_fieldGenerator_255) ?_
  intro p hp hdvd
  have hfactors : p ∣ 3 * (5 * 17) := hdvd
  have h17 : Nat.Prime 17 := by norm_num
  simp only [hp.dvd_mul, Nat.prime_dvd_prime_iff_eq hp, Nat.prime_three, Nat.prime_five, h17] at hfactors
  exact (residue_pow_eq_one_iff ..).not.mpr (gfPow_fieldGenerator_ne_one hfactors)

theorem gfPow_gfPow_fieldGenerator_255 (i : Nat) : gfPow (gfPow fieldGenerator i) 255 = 0x01#8 := by
  rw [gfPow_gfPow, mul_comm, ← gfPow_gfPow, gfPow_fieldGenerator_255, ← residue_pow_eq_one_iff, residue_one, one_pow]

theorem gfPow_fieldGenerator_ne_zero (i : Nat) : gfPow fieldGenerator i ≠ 0x00#8 := by
  intro h
  have hone := gfPow_gfPow_fieldGenerator_255 i
  rw [h, gfPow, gfMul_zero] at hone
  exact absurd hone (by decide)

theorem gfPow_fieldGenerator_injOn : Set.InjOn (gfPow fieldGenerator) (Finset.range 255) := by
  intro i hi j hj hij
  refine pow_injOn_Iio_orderOf (x := residue fieldGenerator) ?_ ?_ ?_
  · simpa [orderOf_fieldGenerator] using hi
  · simpa [orderOf_fieldGenerator] using hj
  · simpa using congrArg residue hij

/-- The powers by 0 up to 254 are 255 different non-zero elements, so they are all of them. -/
theorem image_gfPow_fieldGenerator : (Finset.range 255).image (gfPow fieldGenerator) = Finset.univ.erase 0x00#8 := by
  apply Finset.eq_of_subset_of_card_le
  · simp [Finset.subset_iff, gfPow_fieldGenerator_ne_zero]
  · rw [Finset.card_image_of_injOn gfPow_fieldGenerator_injOn]
    simp [← FinEnum.card_eq_fintypeCard]

theorem exists_gfPow_fieldGenerator {a : Elem} (ha : a ≠ 0x00#8) : ∃ i, gfPow fieldGenerator i = a := by
  have hmem : a ∈ (Finset.range 255).image (gfPow fieldGenerator) := by simp [image_gfPow_fieldGenerator, ha]
  obtain ⟨i, -, hi⟩ := Finset.mem_image.mp hmem
  exact ⟨i, hi⟩

theorem gfPow_groupOrder {a : Elem} (ha : a ≠ 0x00#8) : gfPow a Config.groupOrder = 0x01#8 := by
  obtain ⟨i, rfl⟩ := exists_gfPow_fieldGenerator ha
  exact gfPow_gfPow_fieldGenerator_255 i

/-! The inverse (R84) and division (R86). -/

@[simp] theorem gfInv_zero : gfInv 0x00#8 = none := rfl

theorem gfInv_of_ne_zero {a : Elem} (ha : a ≠ 0x00#8) : gfInv a = some (gfPow a Config.invExp) := by
  rw [gfInv, if_neg ha, inverterChain_eq_gfPow]

theorem gfMul_gfPow_invExp {a : Elem} (ha : a ≠ 0x00#8) : gfMul a (gfPow a Config.invExp) = 0x01#8 :=
  (gfMul_comm _ _).trans (gfPow_groupOrder ha)

/-- A product with a non-zero factor determines the other factor. -/
theorem gfMul_left_cancel {a b c : Elem} (ha : a ≠ 0x00#8) (h : gfMul a b = gfMul a c) : b = c := by
  have hback (x : Elem) : gfMul (gfPow a Config.invExp) (gfMul a x) = x := by
    rw [← gfMul_assoc, gfMul_comm _ a, gfMul_gfPow_invExp ha, gfMul_one_left]
  rw [← hback b, h, hback]

/-- `gf_inv` has a value exactly where there is an inverse, and it is that inverse. -/
theorem gfInv_eq_some_iff {a r : Elem} : gfInv a = some r ↔ gfMul a r = 0x01#8 := by
  by_cases ha : a = 0x00#8
  · subst ha
    simp
  · rw [gfInv_of_ne_zero ha, Option.some.injEq]
    constructor
    · rintro rfl
      exact gfMul_gfPow_invExp ha
    · intro h
      exact gfMul_left_cancel ha ((gfMul_gfPow_invExp ha).trans h.symm)

theorem gfMul_eq_zero_iff (a b : Elem) : gfMul a b = 0x00#8 ↔ a = 0x00#8 ∨ b = 0x00#8 := by
  constructor
  · intro h
    by_cases ha : a = 0x00#8
    · exact .inl ha
    · exact .inr (gfMul_left_cancel ha (h.trans (gfMul_zero a).symm))
  · rintro (rfl | rfl) <;> simp

theorem exists_gfInv {a : Elem} (ha : a ≠ 0x00#8) : ∃ r, gfInv a = some r ∧ gfMul a r = 0x01#8 :=
  ⟨_, gfInv_of_ne_zero ha, gfMul_gfPow_invExp ha⟩

/-- Settles O8: the ring laws hold of the residues, and the inverse is there because 0x03 generates the non-zero
elements. -/
theorem fieldLawsHold : Obligations.FieldLawsHold :=
  ⟨fun a b c => ⟨gfAdd_assoc a b c, gfAdd_comm a b⟩,
   fun a b c => ⟨gfMul_assoc a b c, gfMul_comm a b, gfMul_gfAdd a b c⟩,
   fun a => ⟨gfMul_one a, gfMul_zero a⟩,
   fun _ ha => ⟨exists_gfInv ha, gfPow_groupOrder ha⟩,
   gfMul_eq_zero_iff⟩

/-- Settles O9: having a product 0x01 is a symmetric relation, and `gf_inv` is its graph. -/
theorem inverseIsUnique : Obligations.InverseIsUnique := by
  refine ⟨gfInv_zero, gfInv_eq_some_iff.mpr (gfMul_one _), fun a ha => ⟨_, gfInv_of_ne_zero ha, rfl, fun b => ?_, ?_⟩⟩
  · rw [← gfInv_eq_some_iff, gfInv_of_ne_zero ha, Option.some.injEq, eq_comm]
  · rw [gfInv_eq_some_iff, gfMul_comm, gfMul_gfPow_invExp ha]

theorem gfDiv_of_gfInv {b r : Elem} (h : gfInv b = some r) (a : Elem) : gfDiv a b = some (gfMul a r) := by
  rw [gfDiv, h, Option.map_some]

@[simp] theorem gfDiv_zero (a : Elem) : gfDiv a 0x00#8 = none := rfl

theorem gfMul_gfMul_inverse {b r : Elem} (h : gfMul b r = 0x01#8) (a : Elem) : gfMul (gfMul a r) b = a := by
  rw [gfMul_assoc, gfMul_comm r, h, gfMul_one]

/-- Settles O11: the quotient is the product with the inverse of the divisor, which the divisor cancels. -/
theorem divisionLaws : Obligations.DivisionLaws := by
  refine ⟨fun a => ⟨gfDiv_zero a, ?_⟩, fun a b hb => ?_, fun b hb => ?_⟩
  · rw [gfDiv_of_gfInv (gfInv_eq_some_iff.mpr (gfMul_one 0x01#8)), gfMul_one]
  · obtain ⟨r, hr, hbr⟩ := exists_gfInv hb
    exact ⟨_, r, gfDiv_of_gfInv hr a, hr, rfl, gfMul_gfMul_inverse hbr a⟩
  · obtain ⟨r, hr, hbr⟩ := exists_gfInv hb
    rw [gfDiv_of_gfInv hr, gfDiv_of_gfInv hr, gfMul_zero_left, hbr]
    exact ⟨rfl, rfl⟩

end Sys2Proof.Machine
end

section
/-!
PROOFS. The field commands (40_field_arithmetic.md R88 to R91): their words, what they write or raise, and when they are
dropped.
-/
namespace Sys2Proof.Machine

/-! Words written byte by byte (30_encoding.md R60). -/

theorem wordOfBytes_eq (op d a b : BitVec 8) : wordOfBytes op d a b = wordOfFields ⟨op, d, a, b⟩ :=
  (wordOfFields_eq_append ⟨op, d, a, b⟩).symm

@[simp] theorem fieldsOfWord_wordOfBytes (op d a b : BitVec 8) :
    fieldsOfWord (wordOfBytes op d a b) = ⟨op, d, a, b⟩ := by
  rw [wordOfBytes_eq, fieldsOfWord_wordOfFields]

@[simp] theorem regByte_eq (r : Reg) : regByte r = fieldOfReg r := by
  revert r
  decide

theorem decode_wordOfBytes {op d a b : BitVec 8} {i : Instr} (h : fieldsOfInstr i = ⟨op, d, a, b⟩) :
    decode (wordOfBytes op d a b) = .ok i := by
  rw [decode, fieldsOfWord_wordOfBytes, ← h, decodeFields_fieldsOfInstr]

theorem raisesIllegal_wordOfBytes {op d a b : BitVec 8} {f : Format} (hf : formatOf op = some f)
    (h : ¬ Fields.Fits ⟨op, d, a, b⟩ f) : RaisesIllegal (wordOfBytes op d a b) := by
  have hbad : ¬ (fieldsOfWord (wordOfBytes op d a b)).wellFormed = true := by
    rwa [fieldsOfWord_wordOfBytes, Fields.wellFormed_iff hf]
  obtain ⟨e, he⟩ := (decode_error_iff _).mpr hbad
  exact raisesIllegal_of_error he

theorem raisesIllegal_r3 {op : BitVec 8} (hf : formatOf op = some .r3) (d a b : BitVec 8)
    (h : 7 < d.toNat ∨ 7 < a.toNat ∨ 7 < b.toNat) : RaisesIllegal (wordOfBytes op d a b) :=
  raisesIllegal_wordOfBytes hf ((Fields.not_fits_iff _ _).mpr (by simpa [Format.regFields, Format.zeroFields] using h))

theorem raisesIllegal_r2 {op : BitVec 8} (hf : formatOf op = some .r2) (d a b : BitVec 8)
    (h : 7 < d.toNat ∨ 7 < a.toNat ∨ b ≠ 0x00#8) : RaisesIllegal (wordOfBytes op d a b) :=
  raisesIllegal_wordOfBytes hf
    ((Fields.not_fits_iff _ _).mpr (by simpa [Format.regFields, Format.zeroFields, or_assoc] using h))

/-! What a command does, from its next state. -/

theorem droppedWhenLatched {i : Instr} (hc : i ≠ .clrerr) (hw : i ≠ .wipe) : DroppedWhenLatched i :=
  fun _ hs => exec_of_latched hs hc hw

theorem writesReg_of_exec {i : Instr} {s : State} {rd : Reg} {v : Elem} (h : exec i s = .next (s.setReg rd v)) :
    WritesReg i s rd v :=
  ⟨_, h, s.reg_setReg_same rd v, setReg_onlyReg s rd v⟩

theorem raisesFault_of_exec {i : Instr} {s : State} {c : Cause} {info : BitVec 8}
    (h : exec i s = .next (s.raise c info)) : RaisesFault i s c info :=
  ⟨_, h, raise_raised s c info⟩

section Clear
variable {s : State} (hs : s.status.err = false)
include hs

theorem exec_gfinv_of_some (rd : Reg) {rs1 : Reg} {v : Elem} (h : gfInv (s.reg rs1) = some v) :
    exec (.gfinv rd rs1) s = .next (s.setReg rd v) := by
  simp [exec, execGfinv, unlessLatched_of_clear hs, h]

theorem exec_gfinv_of_none (rd : Reg) {rs1 : Reg} (h : gfInv (s.reg rs1) = none) :
    exec (.gfinv rd rs1) s = .next (s.raise .invZero (regInfo rs1)) := by
  simp [exec, execGfinv, unlessLatched_of_clear hs, h]

theorem exec_gfdiv_of_some (rd : Reg) {rs1 rs2 : Reg} {v : Elem} (h : gfDiv (s.reg rs1) (s.reg rs2) = some v) :
    exec (.gfdiv rd rs1 rs2) s = .next (s.setReg rd v) := by
  simp [exec, execGfdiv, unlessLatched_of_clear hs, h]

theorem exec_gfdiv_of_none (rd : Reg) {rs1 rs2 : Reg} (h : gfDiv (s.reg rs1) (s.reg rs2) = none) :
    exec (.gfdiv rd rs1 rs2) s = .next (s.raise .invZero (regInfo rs2)) := by
  simp [exec, execGfdiv, unlessLatched_of_clear hs, h]

theorem writesReg_gfmul (rd rs1 rs2 : Reg) {v : Elem} (hv : gfMul (s.reg rs1) (s.reg rs2) = v) :
    WritesReg (.gfmul rd rs1 rs2) s rd v :=
  writesReg_of_exec (hv ▸ exec_gfmul_of_clear rd rs1 rs2 hs)

end Clear

theorem exec_gfmul_comm (rd rs1 rs2 : Reg) {s : State} (hs : s.status.err = false) :
    exec (.gfmul rd rs1 rs2) s = exec (.gfmul rd rs2 rs1) s := by
  rw [exec_gfmul_of_clear rd rs1 rs2 hs, exec_gfmul_of_clear rd rs2 rs1 hs, gfMul_comm]

theorem cyclesOfWord_of_gfmul {w : Word} {rd rs1 rs2 : Reg} (h : decode w = .ok (.gfmul rd rs1 rs2)) :
    cyclesOfWord w = Config.latency 0x02#8 0x00#8 := by
  rw [cyclesOfWord, lenOfWord, h, ← opcode_of_decode h, Instr.opcode]

/-- Settles O12: one write of the sum, whose operands are read before it. -/
theorem gfaddFollowsItsRule : Obligations.GfaddFollowsItsRule :=
  ⟨fun rd rs1 rs2 =>
    ⟨decode_wordOfBytes (by simp [fieldsOfInstr, Instr.opcode]),
     fun _ hs => writesReg_of_exec (exec_gfadd_of_clear rd rs1 rs2 hs),
     droppedWhenLatched (by simp) (by simp)⟩,
   raisesIllegal_r3 rfl⟩

/-- Settles O13: the corner cases are laws of `gf_mul`, and the word has no `len` field. -/
theorem gfmulFollowsItsRule : Obligations.GfmulFollowsItsRule := by
  refine ⟨fun rd rs1 rs2 => ?_, raisesIllegal_r3 rfl⟩
  have hdecode : decode (wordOfBytes 0x02#8 (regByte rd) (regByte rs1) (regByte rs2)) = .ok (.gfmul rd rs1 rs2) :=
    decode_wordOfBytes (by simp [fieldsOfInstr, Instr.opcode])
  refine ⟨hdecode, fun s hs => ⟨?_, ?_, fun hzero => ?_, fun hone => ?_⟩, cyclesOfWord_of_gfmul hdecode,
    droppedWhenLatched (by simp) (by simp)⟩
  · exact writesReg_gfmul hs rd rs1 rs2 rfl
  · exact exec_gfmul_comm rd rs1 rs2 hs
  · exact writesReg_gfmul hs rd rs1 rs2 (by rw [hzero, gfMul_zero_left])
  · exact writesReg_gfmul hs rd rs1 rs2 (by rw [hone, gfMul_one_left])

/-- Settles O14: the command writes or raises as `gf_inv` has a value or none. -/
theorem gfinvFollowsItsRule : Obligations.GfinvFollowsItsRule := by
  refine ⟨fun rd rs1 => ⟨decode_wordOfBytes (by simp [fieldsOfInstr, Instr.opcode]), fun s hs hne => ?_,
    fun s hs hzero => ?_, droppedWhenLatched (by simp) (by simp)⟩, raisesIllegal_r2 rfl⟩
  · obtain ⟨r, hr, hproduct⟩ := exists_gfInv hne
    exact ⟨r, hr, hproduct, writesReg_of_exec (exec_gfinv_of_some hs rd hr)⟩
  · rw [regByte_eq]
    exact raisesFault_of_exec (exec_gfinv_of_none hs rd (by rw [hzero, gfInv_zero]))

/-- Settles O15: the command writes or raises as `gf_div` has a value or none. -/
theorem gfdivFollowsItsRule : Obligations.GfdivFollowsItsRule := by
  refine ⟨fun rd rs1 rs2 => ⟨decode_wordOfBytes (by simp [fieldsOfInstr, Instr.opcode]), fun s hs hne => ?_,
    fun s hs hzero => ?_, droppedWhenLatched (by simp) (by simp)⟩, raisesIllegal_r3 rfl⟩
  · obtain ⟨r, hr, hproduct⟩ := exists_gfInv hne
    have hwrites := writesReg_of_exec (exec_gfdiv_of_some hs rd (gfDiv_of_gfInv hr (s.reg rs1)))
    refine ⟨r, hr, gfMul_gfMul_inverse hproduct _, hwrites, fun heq => ?_, fun hzero => ?_⟩
    · rw [heq, hproduct]
    · rw [hzero, gfMul_zero_left]
  · rw [regByte_eq]
    exact raisesFault_of_exec (exec_gfdiv_of_none hs rd (by rw [hzero, gfDiv_zero]))

end Sys2Proof.Machine
end

section
/-!
PROOFS. The data movement commands (41_data_movement.md R100 to R109): their words, what they write, and when they are
dropped.
-/
namespace Sys2Proof.Machine

/-! Words whose fields do not fit the format (30_encoding.md R65). LDI and the loads have their register and their zero
byte in the same places (R61). -/

theorem raisesIllegal_ri_or_rl {op : BitVec 8} {f : Format} (hf : formatOf op = some f) (hformat : f = .ri ∨ f = .rl)
    (d a b : BitVec 8) (h : 7 < d.toNat ∨ b ≠ 0x00#8) : RaisesIllegal (wordOfBytes op d a b) := by
  refine raisesIllegal_wordOfBytes hf ((Fields.not_fits_iff _ _).mpr ?_)
  rcases hformat with rfl | rfl <;> simpa [Format.regFields, Format.zeroFields] using h

theorem raisesIllegal_sr {op : BitVec 8} (hf : formatOf op = some .sr) (d a b : BitVec 8)
    (h : d ≠ 0x00#8 ∨ 7 < b.toNat) : RaisesIllegal (wordOfBytes op d a b) :=
  raisesIllegal_wordOfBytes hf
    ((Fields.not_fits_iff _ _).mpr (by simpa [Format.regFields, Format.zeroFields] using h.symm))

theorem raisesIllegal_si {op : BitVec 8} (hf : formatOf op = some .si) (d a b : BitVec 8) (h : d ≠ 0x00#8) :
    RaisesIllegal (wordOfBytes op d a b) :=
  raisesIllegal_wordOfBytes hf ((Fields.not_fits_iff _ _).mpr (by simpa [Format.regFields, Format.zeroFields] using h))

/-! What a command does with the latch clear. -/

theorem writesElem_of_exec {i : Instr} {s : State} {m : VecMem} {idx : Nat} {v : Elem}
    (h : exec i s = .next (s.setElem m idx v)) : WritesElem i s m idx v :=
  ⟨_, h, by simp [s.elem_setElem], setElem_onlyElem s m idx v⟩

/-- A command that the error latch gates gives, with the latch clear, what its effect gives (60_exceptions.md R164). -/
theorem exec_of_gated {i : Instr} {s : State} {o : Outcome} (hs : s.status.err = false)
    (h : exec i s = s.unlessLatched fun _ => o) : exec i s = o :=
  h.trans (unlessLatched_of_clear hs)

/-- Settles O16: one write of the immediate. -/
theorem ldiFollowsItsRule : Obligations.LdiFollowsItsRule := by
  refine ⟨fun rd imm8 => ?_, raisesIllegal_ri_or_rl rfl (.inl rfl)⟩
  rw [regByte_eq]
  exact ⟨decode_wordOfBytes rfl, fun s hs => writesReg_of_exec (exec_ldi_of_clear rd imm8 hs),
    droppedWhenLatched nofun nofun⟩

/-- Settles O17: one write to a register, of an element of the memory that the opcode names. -/
theorem loadsFollowTheirRules : Obligations.LoadsFollowTheirRules := by
  refine ⟨fun rd idx => ?_, fun d a b h => ?_⟩
  · rw [regByte_eq]
    refine ⟨decode_wordOfBytes rfl, decode_wordOfBytes rfl, decode_wordOfBytes rfl, fun s hs => ⟨?_, ?_, ?_⟩,
      droppedWhenLatched nofun nofun, droppedWhenLatched nofun nofun, droppedWhenLatched nofun nofun⟩
    all_goals exact writesReg_of_exec (exec_of_gated hs rfl)
  · have hraises {op : BitVec 8} (hf : formatOf op = some .rl) : RaisesIllegal (wordOfBytes op d a b) :=
      raisesIllegal_ri_or_rl hf (.inr rfl) d a b h
    exact ⟨hraises rfl, hraises rfl, hraises rfl⟩

/-- Settles O18: one write of the register, to an element of the memory that the opcode names. -/
theorem storesFollowTheirRules : Obligations.StoresFollowTheirRules := by
  refine ⟨fun idx rs => ?_, fun d a b h => ?_⟩
  · rw [regByte_eq]
    refine ⟨decode_wordOfBytes rfl, decode_wordOfBytes rfl, decode_wordOfBytes rfl, fun s hs => ⟨?_, ?_, ?_⟩,
      droppedWhenLatched nofun nofun, droppedWhenLatched nofun nofun, droppedWhenLatched nofun nofun⟩
    all_goals exact writesElem_of_exec (exec_of_gated hs rfl)
  · exact ⟨raisesIllegal_sr rfl d a b h, raisesIllegal_sr rfl d a b h, raisesIllegal_sr rfl d a b h⟩

/-- Settles O19: one write of the immediate, to an element of the memory that the opcode names. -/
theorem setsFollowTheirRules : Obligations.SetsFollowTheirRules := by
  refine ⟨fun idx imm8 => ?_, fun d a b h => ?_⟩
  · refine ⟨decode_wordOfBytes rfl, decode_wordOfBytes rfl, decode_wordOfBytes rfl, fun s hs => ⟨?_, ?_, ?_⟩,
      droppedWhenLatched nofun nofun, droppedWhenLatched nofun nofun, droppedWhenLatched nofun nofun⟩
    all_goals exact writesElem_of_exec (exec_of_gated hs rfl)
  · exact ⟨raisesIllegal_si rfl d a b h, raisesIllegal_si rfl d a b h, raisesIllegal_si rfl d a b h⟩

end Sys2Proof.Machine
end

section
/-!
PROOFS. The polynomial evaluator (42_polynomial_evaluator.md R120, R121): Horner's loop, its value as a sum of terms, and
the command EVAL.
-/
namespace Sys2Proof.Machine

/-! The function (R120). -/

@[simp] theorem gfAdd_zero_left (a : Elem) : gfAdd 0x00#8 a = a := BitVec.zero_xor

/-- Horner's loop started from 0x00 and run over every coefficient, the second reading of R120 (`polyEval_eq_horner`). -/
def horner (c : List Elem) (x : Elem) : Elem := c.foldr (fun ci y => gfAdd (gfMul y x) ci) 0x00#8

@[simp] theorem horner_nil (x : Elem) : horner [] x = 0x00#8 := rfl

@[simp] theorem horner_cons (c0 : Elem) (cs : List Elem) (x : Elem) :
    horner (c0 :: cs) x = gfAdd (gfMul (horner cs x) x) c0 := rfl

@[simp] theorem polyEval_nil (x : Elem) : polyEval [] x = none := rfl

theorem polyEval_singleton (c0 x : Elem) : polyEval [c0] x = some c0 := rfl

theorem polyEval_cons (c0 : Elem) (cs : List Elem) (x : Elem) : polyEval (c0 :: cs) x = some (horner (c0 :: cs) x) := by
  induction cs generalizing c0 with
  | nil => simp [polyEval_singleton]
  | cons c1 cs ih => rw [polyEval, ih, Option.map_some, horner_cons c0]

theorem polyEval_eq_horner {c : List Elem} (hc : c ≠ []) (x : Elem) : polyEval c x = some (horner c x) := by
  cases c with
  | nil => exact absurd rfl hc
  | cons c0 cs => exact polyEval_cons c0 cs x

theorem residue_foldl_gfAdd (f : Nat → Elem) (n : Nat) :
    residue ((List.range n).foldl (fun acc i => gfAdd acc (f i)) 0x00#8) = ∑ i ∈ Finset.range n, residue (f i) := by
  induction n with
  | zero => simp
  | succ n ih =>
    rw [List.range_succ, List.foldl_append, List.foldl_cons, List.foldl_nil, residue_gfAdd, ih, Finset.sum_range_succ]

/-- The value as a sum of terms, in the ring of residues. -/
theorem residue_horner (c : List Elem) (x : Elem) :
    residue (horner c x) = ∑ i ∈ Finset.range c.length, residue (c.getD i 0x00#8) * residue x ^ i := by
  induction c with
  | nil => simp
  | cons c0 cs ih =>
    rw [horner_cons, residue_gfAdd, residue_gfMul, ih, List.length_cons, Finset.sum_range_succ', Finset.sum_mul]
    simp [pow_succ, mul_assoc]

theorem horner_eq_sum_of_terms (c : List Elem) (x : Elem) :
    horner c x = (List.range c.length).foldl
      (fun acc i => gfAdd acc (gfMul (c.getD i 0x00#8) (gfPow x i))) 0x00#8 := by
  apply residue_injective
  rw [residue_horner, residue_foldl_gfAdd]
  simp

/-- Settles O20: both loops have one residue, the sum of the terms. -/
theorem polyEvalIsTheSumOfTerms : Obligations.PolyEvalIsTheSumOfTerms := by
  refine ⟨fun c x hc => ⟨?_, polyEval_eq_horner hc x⟩, polyEval_singleton⟩
  rw [polyEval_eq_horner hc, horner_eq_sum_of_terms]

/-! The corner cases of the value (R121, R123). -/

theorem horner_at_zero (c : List Elem) : horner c 0x00#8 = c.getD 0 0x00#8 := by
  cases c <;> simp

theorem horner_of_length_one {c : List Elem} (hc : c.length = 1) (x : Elem) : horner c x = c.getD 0 0x00#8 := by
  obtain ⟨c0, rfl⟩ := List.length_eq_one_iff.mp hc
  simp

theorem horner_at_one (c : List Elem) :
    horner c 0x01#8 = (List.range c.length).foldl (fun acc i => acc ^^^ c.getD i 0x00#8) 0x00#8 := by
  apply residue_injective
  rw [residue_horner, residue_one]
  simp only [one_pow, mul_one]
  exact (residue_foldl_gfAdd (c.getD · 0x00#8) c.length).symm

/-! The command (R121). -/

theorem raisesIllegal_rv {op : BitVec 8} (hf : formatOf op = some .rv) (d a b : BitVec 8)
    (h : 7 < d.toNat ∨ 7 < a.toNat) : RaisesIllegal (wordOfBytes op d a b) :=
  raisesIllegal_wordOfBytes hf ((Fields.not_fits_iff _ _).mpr (by simpa [Format.regFields, Format.zeroFields] using h))

@[simp] theorem vectorOperand_zero (s : State) (m : VecMem) : vectorOperand s m 0x00#8 = [] := rfl

theorem count_pos {len : Count} (h : len ≠ 0x00#8) : 0 < len.toNat := by bv_omega

theorem vectorOperand_ne_nil (s : State) (m : VecMem) {len : Count} (h : len ≠ 0x00#8) : vectorOperand s m len ≠ [] := by
  rw [← List.length_pos_iff, vectorOperand_length]
  exact count_pos h

section Clear
variable {s : State} (hs : s.status.err = false)
include hs

theorem exec_eval_zero (rd rs : Reg) : exec (.eval rd rs 0x00#8) s = .next (s.raise .badLen 0x00#8) := by
  simp [exec, execEval, unlessLatched_of_clear hs]

theorem exec_eval_of_ne_zero (rd rs : Reg) {len : Count} (h : len ≠ 0x00#8) :
    exec (.eval rd rs len) s = .next (s.setReg rd (horner (vectorOperand s .cv len) (s.reg rs))) := by
  simp [exec, execEval, unlessLatched_of_clear hs, polyEval_eq_horner (vectorOperand_ne_nil s .cv h)]

end Clear

/-- A loop over the indices of a vector operand reads the elements of the memory. -/
theorem foldl_vectorOperand (s : State) (m : VecMem) (len : Count) (f : Elem → Elem → Elem) (a : Elem) :
    (List.range len.toNat).foldl (fun acc i => f acc ((vectorOperand s m len).getD i 0x00#8)) a =
      (List.range len.toNat).foldl (fun acc i => f acc (s.elem m i)) a :=
  List.foldl_ext _ _ _ fun acc _ hi => congrArg (f acc) (vectorOperand_getD s m len (List.mem_range.mp hi))

/-- Settles O21: the command raises BAD_LEN or writes as there is no coefficient or some, and its corner cases are those
of Horner's loop. -/
theorem evalFollowsItsRule : Obligations.EvalFollowsItsRule := by
  refine ⟨fun rd rs len => ⟨decode_wordOfBytes (by simp [fieldsOfInstr, Instr.opcode]), droppedWhenLatched nofun nofun,
    fun s hs => ⟨?_, fun hlen => ?_⟩⟩, raisesIllegal_rv rfl⟩
  · rintro rfl
    exact raisesFault_of_exec (exec_eval_zero hs rd rs)
  · refine ⟨_, polyEval_eq_horner (vectorOperand_ne_nil s .cv hlen) _,
      writesReg_of_exec (exec_eval_of_ne_zero hs rd rs hlen), ?_, fun hone => ?_⟩
    · rw [← vectorOperand_getD s .cv len (count_pos hlen)]
      rintro (rfl | hzero)
      · exact horner_of_length_one (vectorOperand_length s .cv 0x01#8) _
      · rw [hzero, horner_at_zero]
    · rw [hone, horner_at_one, vectorOperand_length, foldl_vectorOperand s .cv len (· ^^^ ·)]

end Sys2Proof.Machine
end

section
/-!
PROOFS. The interpolation function (43_lagrange_interpolation.md R130, R134): `lagrange` is followed in the field of
residues, where it is the value of Mathlib's Lagrange interpolation polynomial.
-/
namespace Sys2Proof.Machine
open Polynomial

/-! The residues modulo x^8 + x^4 + x^3 + x + 1 are a field, and each is the residue of one element. -/

theorem residue_surjective : Function.Surjective (residue : Elem → AdjoinRoot reductionPoly) := by
  intro y
  induction y using AdjoinRoot.induction_on with
  | ih p =>
    induction p using Polynomial.induction_on' with
    | add p q hp hq =>
      obtain ⟨a, ha⟩ := hp
      obtain ⟨b, hb⟩ := hq
      exact ⟨gfAdd a b, by rw [residue_gfAdd, ha, hb, map_add]⟩
    | monomial n a =>
      have hbit : a = 0 ∨ a = 1 := by revert a; decide
      rcases hbit with rfl | rfl
      · exact ⟨0x00#8, by simp⟩
      · refine ⟨gfPow 0x02#8 n, ?_⟩
        rw [residue_gfPow, residue_two, monomial_one_right_eq_X_pow, map_pow, AdjoinRoot.mk_X]

theorem isField_residues : IsField (AdjoinRoot reductionPoly) where
  exists_pair_ne := ⟨residue 0x00#8, residue 0x01#8, residue_injective.ne (by decide)⟩
  mul_comm := mul_comm
  mul_inv_cancel {y} hy := by
    obtain ⟨a, rfl⟩ := residue_surjective y
    obtain ⟨r, -, hr⟩ := exists_gfInv (a := a) (by rintro rfl; exact hy residue_zero)
    exact ⟨residue r, by rw [← residue_gfMul, hr, residue_one]⟩

/-- The reduction polynomial is irreducible, so Mathlib knows the residues as a field. -/
theorem fact_irreducible_reductionPoly : Fact (Irreducible reductionPoly) := by
  have hne : reductionPoly ≠ 0 := ne_zero_of_degree_gt (n := 0) (by rw [degree_reductionPoly]; decide)
  have hmax := Ideal.Quotient.maximal_of_isField (Ideal.span {reductionPoly}) isField_residues
  exact ⟨((Ideal.span_singleton_prime hne).mp hmax.isPrime).irreducible⟩

@[simp] theorem gfAdd_self (a : Elem) : gfAdd a a = 0x00#8 := BitVec.xor_self

/-- Addition is also the subtraction of the field (40_field_arithmetic.md R80). -/
theorem residue_gfAdd_eq_sub (a b : Elem) : residue (gfAdd a b) = residue a - residue b := by
  rw [eq_sub_iff_add_eq, ← residue_gfAdd, gfAdd_assoc, gfAdd_self, gfAdd_comm, gfAdd_zero_left]

/-! Coefficient sequences are the polynomials of bounded degree over the residues. -/

/-- The polynomial over the residues whose coefficients are the elements of the sequence, from `c_0`. -/
noncomputable def listPoly (c : List Elem) : (AdjoinRoot reductionPoly)[X] :=
  ∑ i ∈ Finset.range c.length, C (residue (c.getD i 0x00#8)) * X ^ i

@[simp] theorem coeff_listPoly (c : List Elem) (k : Nat) : (listPoly c).coeff k = residue (c.getD k 0x00#8) := by
  simp only [listPoly, finsetSum_coeff, coeff_C_mul_X_pow, Finset.sum_ite_eq, Finset.mem_range]
  split
  · rfl
  · next hk => rw [List.getD_eq_default _ _ (Nat.le_of_not_lt hk), residue_zero]

theorem degree_listPoly_lt (c : List Elem) : (listPoly c).degree < c.length := by
  refine (degree_lt_iff_coeff_zero _ _).mpr fun k hk => ?_
  rw [coeff_listPoly, List.getD_eq_default _ _ hk, residue_zero]

theorem eval_listPoly (c : List Elem) (x : Elem) : (listPoly c).eval (residue x) = residue (horner c x) := by
  simp [listPoly, eval_finsetSum, residue_horner]

theorem eq_of_listPoly_eq {c c' : List Elem} (hlen : c.length = c'.length) (h : listPoly c = listPoly c') : c = c' := by
  refine List.ext_getElem hlen fun k hk hk' => residue_injective ?_
  simpa [hk, hk'] using congrArg (coeff · k) h

theorem exists_listPoly_eq {P : (AdjoinRoot reductionPoly)[X]} {n : Nat} (hP : P.degree < n) :
    ∃ c : List Elem, c.length = n ∧ listPoly c = P := by
  obtain ⟨g, hg⟩ := residue_surjective.hasRightInverse
  refine ⟨(List.range n).map fun k => g (P.coeff k), by simp, ?_⟩
  ext k
  by_cases hk : k < n
  · simp [hk, hg (P.coeff k)]
  · simp [hk, coeff_eq_zero_of_degree_lt (hP.trans_le (Nat.cast_le.mpr (Nat.le_of_not_lt hk)))]

/-! The loops of R130 with each step's value put in. -/

theorem foldlM_eq_some_foldl {α β : Type} {f : α → β → Option α} {g : α → β → α} {l : List β}
    (h : ∀ a, ∀ b ∈ l, f a b = some (g a b)) (a : α) : l.foldlM f a = some (l.foldl g a) := by
  induction l generalizing a with
  | nil => rfl
  | cons b l ih =>
    rw [List.foldlM_cons, h a b List.mem_cons_self]
    exact ih (fun a c hc => h a c (List.mem_cons_of_mem b hc)) (g a b)

theorem foldlM_eq_none {α β : Type} {f : α → β → Option α} {l : List β} {b : β} (hb : b ∈ l)
    (h : ∀ a, f a b = none) (a : α) : l.foldlM f a = none := by
  obtain ⟨l₁, l₂, rfl⟩ := List.append_of_mem hb
  rw [List.foldlM_append]
  cases l₁.foldlM f a with
  | none => rfl
  | some a' => exact congrArg (· >>= (l₂.foldlM f ·)) (h a')

/-- The factor of `j` in `L_i(xstar)` (R130), 0x01 for `j = i`. -/
def basisFactor (xs : List Elem) (xstar : Elem) (i j : Nat) : Elem :=
  if j = i then 0x01#8
  else gfMul (gfAdd xstar (xs.getD j 0x00#8)) (gfPow (gfAdd (xs.getD i 0x00#8) (xs.getD j 0x00#8)) Config.invExp)

/-- The value of `L_i(xstar)` for pairwise distinct x-coordinates (`lagrangeBasis_of_nodup`). -/
def basisValue (xs : List Elem) (xstar : Elem) (i : Nat) : Elem :=
  ((List.range xs.length).map (basisFactor xs xstar i)).foldl gfMul 0x01#8

/-- The value of `lagrange` for pairwise distinct x-coordinates (`lagrange_of_nodup`). -/
def lagrangeValue (xs ys : List Elem) (xstar : Elem) : Elem :=
  (List.range xs.length).foldl (fun acc i => gfAdd acc (gfMul (basisValue xs xstar i) (ys.getD i 0x00#8))) 0x00#8

section Values
variable {xs : List Elem} (hnodup : xs.Nodup)
include hnodup

theorem gfAdd_getD_ne_zero {i j : Nat} (hi : i < xs.length) (hj : j < xs.length) (hne : j ≠ i) :
    gfAdd (xs.getD i 0x00#8) (xs.getD j 0x00#8) ≠ 0x00#8 :=
  gfAdd_ne_zero fun h => hne ((List.getD_inj hi hj hnodup).mp h).symm

theorem lagrangeBasis_of_nodup (xstar : Elem) {i : Nat} (hi : i < xs.length) :
    lagrangeBasis xs xstar i = some (basisValue xs xstar i) := by
  rw [basisValue, List.foldl_map]
  refine foldlM_eq_some_foldl (fun acc j hj => ?_) _
  by_cases hji : j = i
  · simp [basisFactor, hji]
  · rw [if_neg hji, gfInv_of_ne_zero (gfAdd_getD_ne_zero hnodup hi (List.mem_range.mp hj) hji), Option.map_some,
      basisFactor, if_neg hji]

theorem lagrange_of_nodup {ys : List Elem} (hne : xs ≠ []) (hys : ys.length = xs.length) (xstar : Elem) :
    lagrange xs ys xstar = some (lagrangeValue xs ys xstar) := by
  rw [lagrange, if_neg (by simp [hne, hys])]
  refine foldlM_eq_some_foldl (fun acc i hi => ?_) _
  rw [lagrangeBasis_of_nodup hnodup xstar (List.mem_range.mp hi), Option.map_some]

end Values

theorem lagrangeBasis_eq_none {xs : List Elem} {i j : Nat} (hj : j < xs.length) (hne : j ≠ i)
    (heq : xs.getD i 0x00#8 = xs.getD j 0x00#8) (xstar : Elem) : lagrangeBasis xs xstar i = none := by
  refine foldlM_eq_none (List.mem_range.mpr hj) (fun acc => ?_) _
  rw [if_neg hne, heq, gfAdd_self, gfInv_zero, Option.map_none]

/-- Two equal x-coordinates leave `lagrange` without a value (93_implementation_defined.md U4). -/
theorem lagrange_of_not_nodup {xs : List Elem} (h : ¬ xs.Nodup) (ys : List Elem) (xstar : Elem) :
    lagrange xs ys xstar = none := by
  rw [List.nodup_iff_injective_getElem, Function.not_injective_iff] at h
  obtain ⟨i, j, heq, hne⟩ := h
  have hbasis : lagrangeBasis xs xstar i = none :=
    lagrangeBasis_eq_none j.isLt (fun h => hne (Fin.ext h.symm)) (by simpa using heq) xstar
  rw [lagrange]
  split
  · rfl
  · refine foldlM_eq_none (List.mem_range.mpr i.isLt) (fun acc => ?_) _
    rw [hbasis, Option.map_none]

/-! The value of `lagrange` is that of Mathlib's interpolation polynomial. -/

/-- The residues of a sequence, by index. -/
noncomputable def nodeResidue (xs : List Elem) (i : Nat) : AdjoinRoot reductionPoly := residue (xs.getD i 0x00#8)

theorem nodeResidue_injOn {xs : List Elem} (hnodup : xs.Nodup) :
    Set.InjOn (nodeResidue xs) (Finset.range xs.length) := by
  intro i hi j hj h
  rw [Finset.coe_range, Set.mem_Iio] at hi hj
  exact (List.getD_inj hi hj hnodup).mp (residue_injective h)

theorem residue_foldl_gfMul (f : Nat → Elem) (n : Nat) :
    residue (((List.range n).map f).foldl gfMul 0x01#8) = ∏ i ∈ Finset.range n, residue (f i) := by
  induction n with
  | zero => simp
  | succ n ih => simp [List.range_succ, Finset.prod_range_succ, ih]

/-- The coefficients give the y-values at the x-coordinates. -/
def PassesThrough (c xs ys : List Elem) : Prop :=
  ∀ i, i < xs.length → polyEval c (xs.getD i 0x00#8) = some (ys.getD i 0x00#8)

section Interpolation
variable [Fact (Irreducible reductionPoly)] {xs : List Elem} (hnodup : xs.Nodup)

theorem residue_gfPow_invExp {a : Elem} (ha : a ≠ 0x00#8) : residue (gfPow a Config.invExp) = (residue a)⁻¹ := by
  refine eq_inv_of_mul_eq_one_right ?_
  rw [← residue_gfMul, gfMul_gfPow_invExp ha, residue_one]

include hnodup

theorem residue_basisFactor (xstar : Elem) {i j : Nat} (hi : i < xs.length) (hj : j < xs.length) (hne : j ≠ i) :
    residue (basisFactor xs xstar i j) =
      (Lagrange.basisDivisor (nodeResidue xs i) (nodeResidue xs j)).eval (residue xstar) := by
  rw [basisFactor, if_neg hne, residue_gfMul, residue_gfPow_invExp (gfAdd_getD_ne_zero hnodup hi hj hne),
    residue_gfAdd_eq_sub, residue_gfAdd_eq_sub, mul_comm]
  simp [Lagrange.basisDivisor, nodeResidue]

theorem residue_basisValue (xstar : Elem) {i : Nat} (hi : i < xs.length) :
    residue (basisValue xs xstar i) =
      (Lagrange.basis (Finset.range xs.length) (nodeResidue xs) i).eval (residue xstar) := by
  rw [basisValue, residue_foldl_gfMul, Lagrange.basis, eval_prod,
    ← Finset.prod_erase (a := i) _ (by simp [basisFactor])]
  refine Finset.prod_congr rfl fun j hj => ?_
  obtain ⟨hne, hj⟩ := Finset.mem_erase.mp hj
  exact residue_basisFactor hnodup xstar hi (Finset.mem_range.mp hj) hne

theorem residue_lagrangeValue (ys : List Elem) (xstar : Elem) :
    residue (lagrangeValue xs ys xstar) =
      (Lagrange.interpolate (Finset.range xs.length) (nodeResidue xs) (nodeResidue ys)).eval (residue xstar) := by
  rw [lagrangeValue, residue_foldl_gfAdd, Lagrange.interpolate_apply, eval_finsetSum]
  refine Finset.sum_congr rfl fun i hi => ?_
  rw [residue_gfMul, residue_basisValue hnodup xstar (Finset.mem_range.mp hi), eval_mul, eval_C, mul_comm, nodeResidue]

theorem listPoly_eq_interpolate {c ys : List Elem} (hc : c ≠ []) (hlen : c.length ≤ xs.length)
    (h : PassesThrough c xs ys) :
    listPoly c = Lagrange.interpolate (Finset.range xs.length) (nodeResidue xs) (nodeResidue ys) := by
  refine Lagrange.eq_interpolate_of_eval_eq _ (nodeResidue_injOn hnodup) ?_ fun i hi => ?_
  · rw [Finset.card_range]
    exact (degree_listPoly_lt c).trans_le (Nat.cast_le.mpr hlen)
  · have hvalue := h i (Finset.mem_range.mp hi)
    rw [polyEval_eq_horner hc, Option.some.injEq] at hvalue
    rw [nodeResidue, eval_listPoly, hvalue, nodeResidue]

end Interpolation

/-- R130: `lagrange` is the value of any polynomial through the points that has at most as many coefficients. -/
theorem lagrange_eq_polyEval {xs ys c : List Elem} (hnodup : xs.Nodup) (hc : c ≠ []) (hlen : c.length ≤ xs.length)
    (hys : ys.length = xs.length) (h : PassesThrough c xs ys) (xstar : Elem) :
    lagrange xs ys xstar = polyEval c xstar := by
  have := fact_irreducible_reductionPoly
  have hxs : xs ≠ [] := List.length_pos_iff.mp ((List.length_pos_iff.mpr hc).trans_le hlen)
  rw [lagrange_of_nodup hnodup hxs hys, polyEval_eq_horner hc, Option.some.injEq]
  apply residue_injective
  rw [residue_lagrangeValue hnodup, ← listPoly_eq_interpolate hnodup hc hlen h, eval_listPoly]

theorem ne_nil_of_length_eq {c xs : List Elem} (hlen : c.length = xs.length) (hxs : xs ≠ []) : c ≠ [] := by
  rwa [← List.length_pos_iff, hlen, List.length_pos_iff]

theorem exists_passesThrough {xs : List Elem} (hnodup : xs.Nodup) (hxs : xs ≠ []) (ys : List Elem) :
    ∃ c : List Elem, c.length = xs.length ∧ PassesThrough c xs ys := by
  have := fact_irreducible_reductionPoly
  have hinj := nodeResidue_injOn hnodup
  obtain ⟨c, hlen, hpoly⟩ := exists_listPoly_eq (n := xs.length)
    (by simpa using Lagrange.degree_interpolate_lt (nodeResidue ys) hinj)
  refine ⟨c, hlen, fun i hi => ?_⟩
  rw [polyEval_eq_horner (ne_nil_of_length_eq hlen hxs), Option.some.injEq]
  apply residue_injective
  rw [← eval_listPoly, hpoly]
  exact Lagrange.eval_interpolate_at_node _ hinj (Finset.mem_range.mpr hi)

theorem eq_of_passesThrough {xs ys c c' : List Elem} (hnodup : xs.Nodup) (hxs : xs ≠ []) (hlen : c.length = xs.length)
    (hlen' : c'.length = xs.length) (h : PassesThrough c xs ys) (h' : PassesThrough c' xs ys) : c = c' := by
  have := fact_irreducible_reductionPoly
  apply eq_of_listPoly_eq (hlen.trans hlen'.symm)
  rw [listPoly_eq_interpolate hnodup (ne_nil_of_length_eq hlen hxs) hlen.le h,
    listPoly_eq_interpolate hnodup (ne_nil_of_length_eq hlen' hxs) hlen'.le h']

/-- Settles O22: the polynomial is the one through the points in the field of residues, of which each coefficient is the
residue of one element. -/
theorem lagrangeIsTheUniquePolynomial : Obligations.LagrangeIsTheUniquePolynomial := by
  intro xs ys hxs hys hnodup
  obtain ⟨c, hlen, hc⟩ := exists_passesThrough hnodup hxs ys
  exact ⟨c, hlen, hc, lagrange_eq_polyEval hnodup (ne_nil_of_length_eq hlen hxs) hlen.le hys hc,
    fun c' hlen' hc' => eq_of_passesThrough hnodup hxs hlen' hlen hc' hc⟩

/-- R133: at an x-coordinate the value is the y-value of its point. -/
theorem lagrange_at_node {xs ys : List Elem} (hnodup : xs.Nodup) (hys : ys.length = xs.length) {k : Nat}
    (hk : k < xs.length) : lagrange xs ys (xs.getD k 0x00#8) = some (ys.getD k 0x00#8) := by
  have hxs : xs ≠ [] := List.ne_nil_of_length_pos (by omega)
  obtain ⟨c, -, hc, hvalue, -⟩ := lagrangeIsTheUniquePolynomial xs ys hxs hys hnodup
  rw [hvalue, hc k hk]

/-- Points given as pairs: the coefficients take each pair's x-coordinate to its y-value, in whatever order. -/
theorem passesThrough_iff_forall_mem (c : List Elem) (ps : List (Elem × Elem)) :
    PassesThrough c (ps.map Prod.fst) (ps.map Prod.snd) ↔ ∀ p ∈ ps, polyEval c p.1 = some p.2 := by
  rw [List.forall_mem_iff_getElem]
  simp only [PassesThrough, List.length_map]
  refine forall_congr' fun i => forall_congr' fun hi => ?_
  simp [hi]

/-- Settles O23: the polynomial through the points does not depend on their order; where two x-coordinates coincide
there is no value in either order. -/
theorem lagrangeIgnoresTheOrderOfPoints : Obligations.LagrangeIgnoresTheOrderOfPoints := by
  intro ps qs xstar hperm
  have hxs := hperm.map Prod.fst
  by_cases hnodup : (ps.map Prod.fst).Nodup
  · rcases eq_or_ne ps [] with rfl | hps
    · rw [hperm.nil_eq]
    · have hne : ps.map Prod.fst ≠ [] := by simpa using hps
      obtain ⟨c, hlen, hc, hvalue, -⟩ := lagrangeIsTheUniquePolynomial _ (ps.map Prod.snd) hne (by simp) hnodup
      have hc' : PassesThrough c (qs.map Prod.fst) (qs.map Prod.snd) := by
        rw [passesThrough_iff_forall_mem]
        exact fun p hp => (passesThrough_iff_forall_mem c ps).mp hc p (hperm.mem_iff.mpr hp)
      rw [hvalue, lagrange_eq_polyEval (hxs.nodup_iff.mp hnodup) (ne_nil_of_length_eq hlen hne)
        (hlen.trans hxs.length_eq).le (by simp) hc']
  · rw [lagrange_of_not_nodup hnodup, lagrange_of_not_nodup (hxs.nodup_iff.not.mp hnodup)]

/-- Settles O24: at the point zero the factor of `j` is the x-coordinate over the difference. -/
theorem lagrangeAtZeroUsesTheNodes : Obligations.LagrangeAtZeroUsesTheNodes := by
  intro xs i hnodup hi
  refine ⟨_, List.forall₂_map_right_iff.mpr (List.forall₂_same.mpr fun j hj => ?_),
    lagrangeBasis_of_nodup hnodup 0x00#8 hi⟩
  rw [basisFactor]
  split
  · rfl
  · next hne =>
    have hdiff := gfAdd_getD_ne_zero hnodup hi (List.mem_range.mp hj) hne
    exact ⟨_, gfInv_of_ne_zero hdiff, by rw [gfAdd_zero_left]; rfl⟩

end Sys2Proof.Machine
end

section
/-!
PROOFS. The commands INTERP0 and INTERP (43_lagrange_interpolation.md R131 to R135): the checks, what the engine does in
each of their cases, and the interpolation identity.
-/
namespace Sys2Proof.Machine

/-! No command raises INV_ZERO (R135). -/

theorem interpolateTo_cause_ne_invZero {rd : Reg} {xstar : Elem} {len : Count} {s t : State}
    (hs : s.status.err = false) (h : interpolateTo rd xstar len s = .next t) (ht : t.status.err = true) :
    t.status.cause ≠ .invZero := by
  rcases interpolateTo_next h with ⟨c, info, hx, rfl⟩ | ⟨-, v, -, rfl⟩
  · rcases checkXs_some hx with ⟨rfl, -⟩ | ⟨_, -, rfl, -⟩ | ⟨_, -, -, rfl, -⟩ <;> simp
  · rw [State.setReg_status, hs] at ht
    cases ht

theorem exec_interp0_of_clear (rd : Reg) (len : Count) {s : State} (hs : s.status.err = false) :
    exec (.interp0 rd len) s = interpolateTo rd 0x00#8 len s := exec_of_gated hs rfl

theorem exec_interp_of_clear (rd rs : Reg) (len : Count) {s : State} (hs : s.status.err = false) :
    exec (.interp rd rs len) s = interpolateTo rd (s.reg rs) len s := exec_of_gated hs rfl

/-- Settles O25: a difference of two x-coordinates is zero only where they coincide, and the checks raise other
causes. -/
theorem noZeroDenominatorAfterTheChecks : Obligations.NoZeroDenominatorAfterTheChecks := by
  refine ⟨fun xs ys xstar hxs hys => ⟨fun h => ?_, fun hnodup => ?_⟩, fun rd rs len s t hs h => ?_⟩
  · by_contra hdup
    rw [lagrange_of_not_nodup hdup] at h
    cases h
  · rw [lagrange_of_nodup hnodup hxs hys, Option.isSome_some]
  · rw [exec_interp0_of_clear rd len hs, exec_interp_of_clear rd rs len hs] at h
    rcases h with h | h <;> exact interpolateTo_cause_ne_invZero hs h

/-! What the checks find in XV (R131). -/

section Search
variable {p : Nat → Bool} {P : Nat → Prop} {n : Nat} (h : ∀ i, i < n → (p i = true ↔ P i))
include h

/-- A search that decides `P` finds the least index below `n` at which `P` holds. -/
theorem find?_range_eq_some_iff (k : Nat) :
    (List.range n).find? p = some k ↔ k < n ∧ P k ∧ ∀ i, i < k → ¬ P i := by
  rw [List.find?_range_eq_some, List.mem_range, and_left_comm]
  refine and_congr_right fun hk => and_congr (h k hk) (forall₂_congr fun i hi => ?_)
  rw [← h i (hi.trans hk), Bool.not_eq_true', Bool.not_eq_true]

theorem find?_range_eq_none_iff : (List.range n).find? p = none ↔ ∀ i, i < n → ¬ P i := by
  rw [List.find?_range_eq_none]
  refine forall₂_congr fun i hi => ?_
  rw [← h i hi, Bool.not_eq_true', Bool.not_eq_true]

end Search

section Checks
variable (s : State) (len : Count)

theorem isZero_vectorOperand_iff (m : VecMem) {i : Nat} (hi : i < (vectorOperand s m len).length) :
    ((vectorOperand s m len).getD i 0x00#8 == 0x00#8) = true ↔ s.elem m i = 0x00#8 := by
  rw [vectorOperand_getD s m len (by simpa using hi), beq_iff_eq]

theorem repeats_vectorOperand_iff {j : Nat} (hj : j < (vectorOperand s .xv len).length) :
    ((List.range j).any fun i =>
      (vectorOperand s .xv len).getD i 0x00#8 == (vectorOperand s .xv len).getD j 0x00#8) = true ↔ RepeatsX s j := by
  rw [vectorOperand_length] at hj
  simp only [List.any_eq_true, List.mem_range, beq_iff_eq, RepeatsX]
  refine exists_congr fun i => and_congr_right fun hij => ?_
  rw [vectorOperand_getD s .xv len (hij.trans hj), vectorOperand_getD s .xv len hj]

theorem firstZero_vectorOperand_eq_some_iff (k : Nat) :
    firstZero (vectorOperand s .xv len) = some k ↔ FirstZeroX s len.toNat k := by
  rw [firstZero, find?_range_eq_some_iff fun _ => isZero_vectorOperand_iff s len .xv, vectorOperand_length]
  rfl

theorem firstZero_vectorOperand_eq_none_iff : firstZero (vectorOperand s .xv len) = none ↔ NonZeroX s len.toNat := by
  rw [firstZero, find?_range_eq_none_iff fun _ => isZero_vectorOperand_iff s len .xv, vectorOperand_length]
  rfl

theorem firstDuplicate_vectorOperand_eq_some_iff (k : Nat) : firstDuplicate (vectorOperand s .xv len) = some k ↔
    k < len.toNat ∧ RepeatsX s k ∧ ∀ i, i < k → ¬ RepeatsX s i := by
  rw [firstDuplicate, find?_range_eq_some_iff fun _ => repeats_vectorOperand_iff s len, vectorOperand_length]

theorem firstDuplicate_vectorOperand_eq_none_iff :
    firstDuplicate (vectorOperand s .xv len) = none ↔ ∀ j, j < len.toNat → ¬ RepeatsX s j := by
  rw [firstDuplicate, find?_range_eq_none_iff fun _ => repeats_vectorOperand_iff s len, vectorOperand_length]

end Checks

theorem nodup_of_firstDuplicate_none {xs : List Elem} (h : firstDuplicate xs = none) : xs.Nodup := by
  refine List.pairwise_iff_getElem.mpr fun i j hi hj hij => ?_
  simpa [hi, hj] using getD_ne_of_firstDuplicate_none h hi hj hij.ne

theorem nodup_of_distinctX {s : State} {len : Count} (h : DistinctX s len.toNat) : (vectorOperand s .xv len).Nodup :=
  nodup_of_firstDuplicate_none ((firstDuplicate_vectorOperand_eq_none_iff s len).mpr h.2)

/-! What the engine does in each of the cases of R131. -/

section Engine
variable (s : State) (rd : Reg) (xstar : Elem)

theorem interpolateTo_zero : interpolateTo rd xstar 0x00#8 s = .next (s.raise .badLen 0x00#8) := rfl

variable {s} {len : Count}

theorem interpolateTo_of_firstZeroX {k : Nat} (h : FirstZeroX s len.toNat k) :
    interpolateTo rd xstar len s = .next (s.raise .zeroX (BitVec.ofNat 8 k)) := by
  have hlen : len.toNat ≠ 0 := (Nat.zero_le k |>.trans_lt h.1).ne'
  simp [interpolateTo, checkXs, hlen, (firstZero_vectorOperand_eq_some_iff s len k).mpr h]

theorem interpolateTo_of_firstDupX {k : Nat} (h : FirstDupX s len.toNat k) :
    interpolateTo rd xstar len s = .next (s.raise .dupX (BitVec.ofNat 8 k)) := by
  obtain ⟨hnonzero, hk, hrepeats⟩ := h
  have hlen : len.toNat ≠ 0 := (Nat.zero_le k |>.trans_lt hk).ne'
  simp [interpolateTo, checkXs, hlen, (firstZero_vectorOperand_eq_none_iff s len).mpr hnonzero,
    (firstDuplicate_vectorOperand_eq_some_iff s len k).mpr ⟨hk, hrepeats⟩]

theorem interpolateTo_of_distinctX {v : Elem} (hlen : len ≠ 0x00#8) (h : DistinctX s len.toNat)
    (hv : lagrange (vectorOperand s .xv len) (vectorOperand s .yv len) xstar = some v) :
    interpolateTo rd xstar len s = .next (s.setReg rd v) := by
  obtain ⟨hnonzero, hdistinct⟩ := h
  simp [interpolateTo, checkXs, (count_pos hlen).ne', (firstZero_vectorOperand_eq_none_iff s len).mpr hnonzero,
    (firstDuplicate_vectorOperand_eq_none_iff s len).mpr hdistinct, hv]

theorem interpolatesTo_of_exec {i : Instr} (h : exec i s = interpolateTo rd xstar len s) :
    InterpolatesTo i s rd xstar len := by
  refine ⟨?_, fun k hk => ?_, fun k hk => ?_, fun hlen hdistinct => ?_⟩
  · rintro rfl
    exact raisesFault_of_exec (h.trans (interpolateTo_zero s rd xstar))
  · exact raisesFault_of_exec (h.trans (interpolateTo_of_firstZeroX rd xstar hk))
  · exact raisesFault_of_exec (h.trans (interpolateTo_of_firstDupX rd xstar hk))
  · have hvalue := lagrange_of_nodup (nodup_of_distinctX hdistinct) (ys := vectorOperand s .yv len)
      (vectorOperand_ne_nil s .xv hlen) (by simp) xstar
    exact ⟨_, hvalue, writesReg_of_exec (h.trans (interpolateTo_of_distinctX rd xstar hlen hdistinct hvalue))⟩

end Engine

/-! The commands (R132, R133). -/

theorem raisesIllegal_r0v {op : BitVec 8} (hf : formatOf op = some .r0v) (d a b : BitVec 8)
    (h : 7 < d.toNat ∨ a ≠ 0x00#8) : RaisesIllegal (wordOfBytes op d a b) :=
  raisesIllegal_wordOfBytes hf ((Fields.not_fits_iff _ _).mpr (by simpa [Format.regFields, Format.zeroFields] using h))

theorem distinctX_one {s : State} (h : s.elem .xv 0 ≠ 0x00#8) : DistinctX s 1 := by
  simp [DistinctX, NonZeroX, RepeatsX, h]

theorem lagrange_singleton (x y xstar : Elem) : lagrange [x] [y] xstar = some y := by
  have hconstant : PassesThrough [y] [x] [y] := by simp [PassesThrough, polyEval_singleton]
  rw [lagrange_eq_polyEval (ys := [y]) (List.nodup_singleton x) (List.cons_ne_nil y []) le_rfl rfl hconstant,
    polyEval_singleton]

/-- Settles O26: the engine at the point zero; one point is interpolated by a constant. -/
theorem interp0FollowsItsRule : Obligations.Interp0FollowsItsRule := by
  refine ⟨fun rd len => ⟨decode_wordOfBytes (by simp [fieldsOfInstr, Instr.opcode]), droppedWhenLatched nofun nofun,
    fun s hs => ⟨interpolatesTo_of_exec rd _ (exec_interp0_of_clear rd len hs), ?_⟩⟩, raisesIllegal_r0v rfl⟩
  rintro rfl hx
  exact writesReg_of_exec ((exec_interp0_of_clear rd _ hs).trans
    (interpolateTo_of_distinctX rd _ (by decide) (distinctX_one hx) (lagrange_singleton _ _ _)))

/-- Settles O27: the engine at the point in the register, which at a node gives the y-value of its point. -/
theorem interpFollowsItsRule : Obligations.InterpFollowsItsRule := by
  refine ⟨fun rd rs len => ⟨decode_wordOfBytes (by simp [fieldsOfInstr, Instr.opcode]),
    droppedWhenLatched nofun nofun,
    fun s hs => ⟨interpolatesTo_of_exec rd _ (exec_interp_of_clear rd rs len hs), fun hzero => ?_,
      fun k hdistinct hk hnode => ?_⟩⟩, raisesIllegal_rv rfl⟩
  · rw [exec_interp_of_clear rd rs len hs, exec_interp0_of_clear rd len hs, hzero]
  · have hlen : len ≠ 0x00#8 := by rintro rfl; cases hk
    have hvalue := lagrange_at_node (ys := vectorOperand s .yv len) (nodup_of_distinctX hdistinct) (by simp)
      (k := k) (by simpa using hk)
    rw [vectorOperand_getD s .xv len hk, vectorOperand_getD s .yv len hk, ← hnode] at hvalue
    exact writesReg_of_exec ((exec_interp_of_clear rd rs len hs).trans
      (interpolateTo_of_distinctX rd _ hlen hdistinct hvalue))

/-- R133, the interpolation identity: the engine gives the value of the polynomial in CV that the points lie on. -/
theorem interpolateTo_of_points_on_polynomial {n len : Count} {s : State} (hn : n ≠ 0x00#8)
    (hle : n.toNat ≤ len.toNat) (hdistinct : DistinctX s len.toNat)
    (h : ∀ i, i < len.toNat → polyEval (vectorOperand s .cv n) (s.elem .xv i) = some (s.elem .yv i))
    (rd : Reg) (xstar : Elem) :
    interpolateTo rd xstar len s = .next (s.setReg rd (horner (vectorOperand s .cv n) xstar)) := by
  have hc := vectorOperand_ne_nil s .cv hn
  have hlen : len ≠ 0x00#8 := by
    rintro rfl
    exact hn (BitVec.eq_of_toNat_eq (Nat.le_zero.mp hle))
  have hpoints : PassesThrough (vectorOperand s .cv n) (vectorOperand s .xv len) (vectorOperand s .yv len) := by
    intro i hi
    rw [vectorOperand_length] at hi
    rw [vectorOperand_getD s .xv len hi, vectorOperand_getD s .yv len hi, h i hi]
  refine interpolateTo_of_distinctX rd xstar hlen hdistinct ?_
  rw [lagrange_eq_polyEval (nodup_of_distinctX hdistinct) hc (by simpa using hle) (by simp) hpoints,
    polyEval_eq_horner hc]

/-- Settles O28: both commands write the value of the polynomial at their point, which at zero is `CV[0]`. -/
theorem interpolationRecoversThePolynomial : Obligations.InterpolationRecoversThePolynomial := by
  intro n len s hs hn hle hdistinct hpoints
  have hengine := interpolateTo_of_points_on_polynomial hn hle hdistinct hpoints
  refine ⟨fun rd rs => ?_, fun rd => writesReg_of_exec ?_⟩
  · rw [exec_interp_of_clear rd rs len hs, hengine, exec_eval_of_ne_zero hs rd rs hn]
  · rw [exec_interp0_of_clear rd len hs, hengine, horner_at_zero, vectorOperand_getD s .cv n (count_pos hn)]

end Sys2Proof.Machine
end

section
/-!
PROOFS. The system commands NOP, CLRERR and WIPE (44_system.md R150 to R152): their words and what they do. How many
steps a sequence of words takes (R153).
-/
namespace Sys2Proof.Machine

/-! The words (30_encoding.md R61, R65): the three byte fields of the format are all must-be-zero. -/

/-- A word of a system opcode with any other bit set is illegal with the latch clear and dropped with it set (R164). -/
theorem illegal_or_dropped_z {op : BitVec 8} (hf : formatOf op = some .z) (d a b : BitVec 8)
    (h : d ≠ 0x00#8 ∨ a ≠ 0x00#8 ∨ b ≠ 0x00#8) : RaisesIllegal (wordOfBytes op d a b) ∧
      ∀ s : State, s.status.err = true → acceptWord (wordOfBytes op d a b) s = .next s := by
  have hbad : ¬ (fieldsOfWord (wordOfBytes op d a b)).wellFormed = true := by
    rw [fieldsOfWord_wordOfBytes, Fields.wellFormed_iff hf, Fields.not_fits_iff]
    exact .inr (by simpa [Format.zeroFields] using h)
  obtain ⟨-, hillegal, -⟩ := illegalInExactlyThreeWays
  exact hillegal _ ((decode_error_iff _).mpr hbad)

/-! The commands. CLRERR and WIPE do not look at the latch. -/

theorem exec_nop (s : State) : exec .nop s = .next s := execNop_eq s

theorem exec_clrerr (s : State) : exec .clrerr s = .next s.clearError := rfl

theorem exec_wipe (s : State) : exec .wipe s = .next s.wipe := rfl

/-- With ERR = 0 a legal status has CAUSE and EINFO zero too (10_state.md R23). -/
theorem Status.eq_clear_of_legal {t : Status} (hlegal : t.legal = true) (herr : t.err = false) : t = Status.clear := by
  obtain ⟨err, cause, einfo⟩ := t
  obtain rfl : err = false := herr
  cases cause with
  | none =>
    obtain rfl : einfo = 0x00#8 := by simpa [Status.legal] using hlegal
    rfl
  | illegalCmd | invZero | badLen | zeroX | dupX => cases hlegal

theorem State.clearError_of_status_clear {s : State} (h : s.status = Status.clear) : s.clearError = s := by
  rw [State.clearError, ← h]

/-- Settles O29: NOP answers its own state whether it is dropped or runs, and its format has no free bit. -/
theorem nopFollowsItsRule : Obligations.NopFollowsItsRule :=
  ⟨decodeOfEncodeIsTheCommand .nop, exec_nop, fun d a b h => (illegal_or_dropped_z rfl d a b h).left⟩

/-- Settles O30: the command is the return from a fault, which has nothing to undo in a legal status with ERR = 0. -/
theorem clrerrFollowsItsRule : Obligations.ClrerrFollowsItsRule := by
  refine ⟨decodeOfEncodeIsTheCommand .clrerr, fun s => ⟨_, exec_clrerr s, rfl, clearError_onlyStatus s⟩,
    fun s hlegal herr => ?_, illegal_or_dropped_z rfl⟩
  rw [exec_clrerr, State.clearError_of_status_clear (Status.eq_clear_of_legal hlegal herr)]

/-- Settles O31: each location reads 0x00 after `wipe`, which leaves STATUS. -/
theorem wipeFollowsItsRule : Obligations.WipeFollowsItsRule :=
  ⟨decodeOfEncodeIsTheCommand .wipe,
    fun s => ⟨_, exec_wipe s, s.wipe_reg, s.wipe_elem, s.wipe_status, s.wipe_host⟩, illegal_or_dropped_z rfl⟩

/-- Any inputs, words and resets alike, are used up in one step each. -/
theorem run_uses_all_inputs (inputs : List HostInput) (s : State) :
    ∃ t : State, core.run inputs.length (s.withInputs inputs) = .next t ∧ t.host = [] := by
  induction inputs generalizing s with
  | nil => exact ⟨s.withInputs [], rfl, rfl⟩
  | cons inp inputs ih =>
    obtain ⟨u, hu, -⟩ := hostStep_goesOn inp s
    obtain ⟨t, hrun, hhost⟩ := ih u
    exact ⟨t, (run_inputs_cons hu inputs).trans hrun, hhost⟩

/-- Settles O43: the inputs are words, one for each of the `n`. -/
theorem nWordsTakeNSteps : Obligations.NWordsTakeNSteps := by
  intro ws s
  rw [← List.length_map HostInput.command]
  exact run_uses_all_inputs (ws.map .command) s

end Sys2Proof.Machine
end

section
/-!
PROOFS. Faults and the error latch (60_exceptions.md R161 to R165): which words raise which fault, that a fault changes
STATUS alone, and what the latch drops until CLRERR.
-/
namespace Sys2Proof.Machine

/-! A word accepted with the latch clear (R163, R164). -/

section Clear
variable {w : Word} {s t : State} (hs : s.status.err = false)
include hs

theorem acceptWord_of_error_of_clear {e : IllegalWord} (hd : decode w = .error e) :
    acceptWord w s = .next (s.raise .illegalCmd (fieldsOfWord w).op) :=
  (acceptWord_of_illegal hd s).trans (unlessLatched_of_clear hs)

theorem exec_next_of_clear {i : Instr} (h : exec i s = .next t) :
    t.status.err = false ∨ ∃ c info, RaisesLegally c info ∧ t = s.raise c info := by
  cases exec_next h with
  | same h => exact .inl (h ▸ hs)
  | reg _ rd v _ h => exact .inl (by rw [h, State.setReg_status, hs])
  | elem _ m k v _ _ h => exact .inl (by rw [h, State.setElem_status, hs])
  | raise _ c info hl h => exact .inr ⟨c, info, hl, h⟩
  | clear _ h => exact .inl (h ▸ rfl)
  | wipe _ h => exact .inl (by rw [h, State.wipe_status, hs])

theorem acceptWord_next_of_clear (h : acceptWord w s = .next t) :
    t.status.err = false ∨ ∃ c info, RaisesLegally c info ∧ t = s.raise c info := by
  cases hd : decode w with
  | error e =>
    rw [acceptWord_of_error_of_clear hs hd] at h
    exact .inr ⟨_, _, raisesLegally_illegalCmd _, (Host.Outcome.next.inj h).symm⟩
  | ok i => exact exec_next_of_clear hs (acceptWord_of_decode hd s ▸ h)

end Clear

/-- Settles O33: with the latch clear, a next state that has it set is the state before with a fault raised. -/
theorem faultsArePrecise : Obligations.FaultsArePrecise := by
  intro w s t hs h ht
  rcases acceptWord_next_of_clear hs h with hclear | ⟨c, info, ⟨hcause, -⟩, rfl⟩
  · rw [hclear] at ht
    cases ht
  · exact ⟨hcause, raise_raised s c info⟩

/-! Which faults are raised (R161, R162): the table read by command. -/

/-- The outcome is a next state with ERR set, this cause and this EINFO. -/
def Latches (o : Outcome) (c : Cause) (info : BitVec 8) : Prop :=
  ∃ t, o = .next t ∧ t.status = { err := true, cause := c, einfo := info }

/-- The faults of the x-coordinates of `XV[0..len-1]` (43_lagrange_interpolation.md R131). -/
def CountFault (s : State) (len : Count) (c : Cause) (info : BitVec 8) : Prop :=
  match c with
  | .badLen => len = 0x00#8 ∧ info = 0x00#8
  | .zeroX  => FirstZeroX s len.toNat info.toNat
  | .dupX   => FirstDupX s len.toNat info.toNat
  | _       => False

/-- The rows of the table of R161 that a command can meet. -/
def CommandFault (i : Instr) (s : State) (c : Cause) (info : BitVec 8) : Prop :=
  match i with
  | .gfinv _ rs1    => s.reg rs1 = 0x00#8 ∧ c = .invZero ∧ info = regByte rs1
  | .gfdiv _ _ rs2  => s.reg rs2 = 0x00#8 ∧ c = .invZero ∧ info = regByte rs2
  | .eval _ _ len   => len = 0x00#8 ∧ c = .badLen ∧ info = 0x00#8
  | .interp0 _ len  => CountFault s len c info
  | .interp _ _ len => CountFault s len c info
  | _               => False

section Table
variable {w : Word} {i : Instr} {s t : State} {c : Cause} {info : BitVec 8}

theorem latches_raise_iff (c' : Cause) (info' : BitVec 8) :
    Latches (.next (s.raise c' info')) c info ↔ c = c' ∧ info = info' := by
  simp [Latches, eq_comm]

theorem not_latches_of_clear (ht : t.status.err = false) : ¬ Latches (.next t) c info := by
  rintro ⟨u, hu, h⟩
  rw [Host.Outcome.next.inj hu, h] at ht
  cases ht

/-- A command that writes under a condition and raises a fault without it. -/
theorem latches_iff_of_cases {o : Outcome} {P : Prop} {c' : Cause} {info' : BitVec 8}
    (hraise : P → o = .next (s.raise c' info')) (hwrite : ¬ P → ∃ t, o = .next t ∧ t.status.err = false) :
    Latches o c info ↔ P ∧ c = c' ∧ info = info' := by
  by_cases hP : P
  · rw [hraise hP, latches_raise_iff, and_iff_right hP]
  · obtain ⟨t, rfl, ht⟩ := hwrite hP
    exact iff_of_false (not_latches_of_clear ht) fun h => hP h.1

theorem countFault_of_checkXs {len : Count} (h : checkXs (vectorOperand s .xv len) = some (c, info)) :
    CountFault s len c info := by
  have toNat_index {k : Nat} (hk : k < len.toNat) : (BitVec.ofNat 8 k).toNat = k :=
    Nat.mod_eq_of_lt (hk.trans len.isLt)
  rcases checkXs_some h with ⟨rfl, rfl, hlen⟩ | ⟨k, hk, rfl, rfl⟩ | ⟨k, hnone, hk, rfl, rfl⟩
  · exact ⟨BitVec.eq_of_toNat_eq ((vectorOperand_length s .xv len).symm.trans hlen), rfl⟩
  · have hfirst := (firstZero_vectorOperand_eq_some_iff s len k).mp hk
    rwa [CountFault, toNat_index hfirst.1]
  · have hfirst := (firstDuplicate_vectorOperand_eq_some_iff s len k).mp hk
    rw [CountFault, toNat_index hfirst.1]
    exact ⟨(firstZero_vectorOperand_eq_none_iff s len).mp hnone, hfirst⟩

theorem interpolateTo_of_countFault {len : Count} (h : CountFault s len c info) (rd : Reg) (xstar : Elem) :
    interpolateTo rd xstar len s = .next (s.raise c info) := by
  cases c with
  | badLen =>
    obtain ⟨rfl, rfl⟩ := h
    exact interpolateTo_zero s rd xstar
  | zeroX => rw [interpolateTo_of_firstZeroX rd xstar h, BitVec.ofNat_toNat, BitVec.setWidth_eq]
  | dupX => rw [interpolateTo_of_firstDupX rd xstar h, BitVec.ofNat_toNat, BitVec.setWidth_eq]
  | none | illegalCmd | invZero => cases h

section Clear
variable (hs : s.status.err = false)
include hs

theorem interpolateTo_latches_iff (rd : Reg) (xstar : Elem) (len : Count) :
    Latches (interpolateTo rd xstar len s) c info ↔ CountFault s len c info := by
  constructor
  · rintro ⟨t, ht, hstatus⟩
    rcases interpolateTo_next ht with ⟨c', info', hx, rfl⟩ | ⟨-, v, -, rfl⟩
    · obtain ⟨rfl, rfl⟩ := (latches_raise_iff c' info').mp ⟨_, rfl, hstatus⟩
      exact countFault_of_checkXs hx
    · exact absurd ⟨_, rfl, hstatus⟩ (not_latches_of_clear hs)
  · intro h
    rw [interpolateTo_of_countFault h]
    exact (latches_raise_iff c info).mpr ⟨rfl, rfl⟩

theorem gfinv_latches_iff (rd rs1 : Reg) :
    Latches (exec (.gfinv rd rs1) s) c info ↔ CommandFault (.gfinv rd rs1) s c info := by
  rw [CommandFault, regByte_eq]
  refine latches_iff_of_cases (s := s) (fun hzero => ?_) fun hne => ?_
  · exact exec_gfinv_of_none hs rd (by rw [hzero, gfInv_zero])
  · exact ⟨_, exec_gfinv_of_some hs rd (gfInv_of_ne_zero hne), hs⟩

theorem gfdiv_latches_iff (rd rs1 rs2 : Reg) :
    Latches (exec (.gfdiv rd rs1 rs2) s) c info ↔ CommandFault (.gfdiv rd rs1 rs2) s c info := by
  rw [CommandFault, regByte_eq]
  refine latches_iff_of_cases (s := s) (fun hzero => ?_) fun hne => ?_
  · exact exec_gfdiv_of_none hs rd (by rw [hzero, gfDiv_zero])
  · exact ⟨_, exec_gfdiv_of_some hs rd (gfDiv_of_gfInv (gfInv_of_ne_zero hne) _), hs⟩

theorem eval_latches_iff (rd rs : Reg) (len : Count) :
    Latches (exec (.eval rd rs len) s) c info ↔ CommandFault (.eval rd rs len) s c info := by
  refine latches_iff_of_cases (s := s) ?_ fun hne => ⟨_, exec_eval_of_ne_zero hs rd rs hne, hs⟩
  rintro rfl
  exact exec_eval_zero hs rd rs

/-- What a command raises with the latch clear is what its rows of the table say. -/
theorem exec_latches_iff : Latches (exec i s) c info ↔ CommandFault i s c info := by
  cases i
  case gfinv rd rs1 => exact gfinv_latches_iff hs rd rs1
  case gfdiv rd rs1 rs2 => exact gfdiv_latches_iff hs rd rs1 rs2
  case eval rd rs len => exact eval_latches_iff hs rd rs len
  case interp0 rd len =>
    rw [exec_interp0_of_clear rd len hs]
    exact interpolateTo_latches_iff hs rd _ len
  case interp rd rs len =>
    rw [exec_interp_of_clear rd rs len hs]
    exact interpolateTo_latches_iff hs rd _ len
  case clrerr => exact iff_of_false (not_latches_of_clear rfl) id
  case wipe => exact iff_of_false (not_latches_of_clear hs) id
  -- Every other command writes, if anything, a register or an element.
  all_goals
    rw [exec_of_gated hs rfl]
    exact iff_of_false (not_latches_of_clear hs) id

end Clear

theorem faultCondition_iff_of_decode (hd : decode w = .ok i) :
    FaultCondition w s c info ↔ CommandFault i s c info := by
  cases i
  case gfinv | gfdiv | eval => cases c <;> simp [FaultCondition, interpolatesWith, CommandFault, hd]
  case interp0 | interp => cases c <;> simp [FaultCondition, interpolatesWith, CommandFault, CountFault, hd]
  -- The table names no other command.
  all_goals exact iff_of_false (by cases c <;> simp [FaultCondition, interpolatesWith, hd]) id

theorem faultCondition_iff_of_error {e : IllegalWord} (hd : decode w = .error e) :
    FaultCondition w s c info ↔ c = .illegalCmd ∧ info = (fieldsOfWord w).op := by
  cases c <;> simp [FaultCondition, interpolatesWith, hd, fieldsOfWord]

end Table

/-- Settles O32: a word that does not decode meets the one row ILLEGAL_CMD, and one that does the rows of its
command. -/
theorem faultsAreExactlyTheTable : Obligations.FaultsAreExactlyTheTable := by
  intro w s hs c info
  change Latches (acceptWord w s) c info ↔ _
  cases hd : decode w with
  | error e => rw [acceptWord_of_error_of_clear hs hd, latches_raise_iff, faultCondition_iff_of_error hd]
  | ok i => rw [acceptWord_of_decode hd, exec_latches_iff hs, faultCondition_iff_of_decode hd]

/-! The latch (R164, R165). -/

/-- Settles O34: the two words that act decode to CLRERR and WIPE, which do not look at the latch. -/
theorem latchDropsAllButTwoWords : Obligations.LatchDropsAllButTwoWords := by
  obtain ⟨hclrerr, hclears, -⟩ := clrerrFollowsItsRule
  obtain ⟨hwipe, hwipes, -⟩ := wipeFollowsItsRule
  refine ⟨fun w s hs => ⟨?_, ?_, acceptWord_of_dropped hs⟩, fun w s hs => ⟨fun i hd => acceptWord_of_decode hd s, ?_⟩⟩
  · rintro rfl
    rw [acceptWord_of_decode hclrerr]
    exact hclears s
  · rintro rfl
    rw [acceptWord_of_decode hwipe]
    exact hwipes s
  · rintro ⟨e, he⟩
    exact raisesIllegal_of_error he s hs

theorem acceptWord_keeps_latched_status {w : Word} {s : State} (hs : s.status.err = true) (hw : w ≠ clrerrWord) :
    ∃ t, acceptWord w s = .next t ∧ t.status = s.status := by
  by_cases hwipe : w = wipeWord
  · subst hwipe
    exact ⟨s.wipe, acceptWord_of_decode (i := .wipe) rfl s, s.wipe_status⟩
  · exact ⟨s, acceptWord_of_dropped hs hw hwipe, rfl⟩

/-- Settles O35, by induction on the words: WIPE leaves STATUS, and every other word but CLRERR is dropped. -/
theorem firstFaultIsKeptUntilCleared : Obligations.FirstFaultIsKeptUntilCleared := by
  intro ws s hs hnot
  induction ws generalizing s with
  | nil => exact ⟨s.withInputs [], rfl, rfl⟩
  | cons w ws ih =>
    obtain ⟨hne, hnot⟩ := not_or.mp (hnot ∘ List.mem_cons.mpr)
    obtain ⟨u, hu, hkept⟩ := acceptWord_keeps_latched_status hs (Ne.symm hne)
    obtain ⟨t, hrun, hstatus⟩ := ih u (hkept ▸ hs) hnot
    refine ⟨t, ?_, hstatus.trans hkept⟩
    rw [← List.length_map HostInput.command] at hrun ⊢
    exact (run_inputs_cons (inp := .command w) hu _).trans hrun

/-- Settles O36: the first step leaves the state with STATUS zero, and the second runs the command on it. -/
theorem commandAfterClrerrExecutes : Obligations.CommandAfterClrerrExecutes := by
  intro w i s hd hhost
  obtain ⟨t, ht, -⟩ := exec_goesOn i (s.withInputs []).clearError
  have hfirst : core.step s = .next (s.withInputs [.command w]).clearError :=
    stepRunsTheDecodedCommand clrerrWord .clrerr _ s hhost rfl
  have hsecond : core.step (s.withInputs [.command w]).clearError = .next t :=
    (stepRunsTheDecodedCommand w i [] (s.withInputs [.command w]).clearError rfl hd).trans ht
  refine ⟨(s.withInputs []).clearError, rfl, by simp, by simp, rfl, ?_⟩
  rw [core_run_succ hfirst, core_run_succ hsecond, ht]
  rfl

end Sys2Proof.Machine
end

section
/-!
PROOFS. Reset and hazards (70_reset_and_hazards.md R190, R191, R194, R198): reset by the pin and by commands, what a
command's result depends on, and what `cmd_ready` depends on.
-/
namespace Sys2Proof.Machine

/-! Reset (R190, R191). -/

theorem State.resetBlock_allZero (s : State) : AllZero s.resetBlock :=
  ⟨s.resetBlock_reg, s.resetBlock_elem, s.resetBlock_status⟩

theorem Block.clock_resets (b : Block) {p : PortsIn} (hp : p.rst = true) :
    b.clock p = .next ⟨b.core.resetBlock, none⟩ := by
  have hcompletes : b.completes p = some .reset := by simp [Block.completes, hp]
  rw [Block.clock_of_completes_some hcompletes rfl]
  simp [Block.nextInFlight, hp]

/-- Settles O44: the edge of a cycle with `rst = 1` is the reset of the block, whatever is in flight. -/
theorem resetClearsEverything : Obligations.ResetClearsEverything :=
  fun b p hp => ⟨by simp [Block.cmdReady, hp], _, b.clock_resets hp, b.core.resetBlock_allZero, rfl,
    fun q hq => by simp [hq]⟩

/-- Settles O45: WIPE leaves STATUS and the host's inputs, CLRERR leaves nothing of STATUS. -/
theorem wipeThenClrerrIsReset : Obligations.WipeThenClrerrIsReset := by
  intro s hhost
  have hwipe : core.step s = .next (s.withInputs [.command clrerrWord]).wipe :=
    stepRunsTheDecodedCommand wipeWord .wipe _ s hhost rfl
  have hclrerr : core.step (s.withInputs [.command clrerrWord]).wipe = .next State.reset :=
    stepRunsTheDecodedCommand clrerrWord .clrerr [] (s.withInputs [.command clrerrWord]).wipe rfl rfl
  rw [core_run_succ hwipe, core_run_succ hclrerr]
  rfl

/-! What `cmd_ready` depends on (R198): a cycle changes what is in flight in the same way whatever the block stores. -/

theorem Block.exists_clock (b : Block) (p : PortsIn) : ∃ t, b.clock p = .next ⟨t, b.nextInFlight p⟩ := by
  cases hc : b.completes p with
  | none => exact ⟨_, Block.clock_of_completes_none hc⟩
  | some inp =>
    obtain ⟨t, ht, -⟩ := hostStep_goesOn inp b.core
    exact ⟨t, Block.clock_of_completes_some hc ht⟩

theorem Block.nextInFlight_congr {b₁ b₂ : Block} (h : b₁.inFlight = b₂.inFlight) (p : PortsIn) :
    b₁.nextInFlight p = b₂.nextInFlight p := by simp only [Block.nextInFlight, h]

theorem Block.inFlight_clocks_congr {b₁ b₂ b₁' b₂' : Block} {ps : List PortsIn} (h : b₁.inFlight = b₂.inFlight)
    (h₁ : b₁.clocks ps = .next b₁') (h₂ : b₂.clocks ps = .next b₂') : b₁'.inFlight = b₂'.inFlight := by
  induction ps generalizing b₁ b₂ with
  | nil =>
    cases h₁
    cases h₂
    exact h
  | cons p ps ih =>
    obtain ⟨t₁, ht₁⟩ := b₁.exists_clock p
    obtain ⟨t₂, ht₂⟩ := b₂.exists_clock p
    rw [Block.clocks_cons ht₁] at h₁
    rw [Block.clocks_cons ht₂] at h₂
    exact ih (Block.nextInFlight_congr h p) h₁ h₂

/-- Settles O54: `cmd_ready` is read from what is in flight, which the cycles keep the same in both blocks. -/
theorem readyDoesNotDependOnStoredValues : Obligations.ReadyDoesNotDependOnStoredValues := by
  intro b₁ b₂ b₁' b₂' ps q h h₁ h₂
  rw [Block.cmdReady, Block.cmdReady, Block.inFlight_clocks_congr h h₁ h₂]

/-! What a command's result depends on (R194): an effect that reads the same values in two states gives the same
result in both; first each shared update, then a command. -/

/-- The next states of an effect in two states with the latch clear show the same result of the command: the same fault
or none, and without a fault the same values in the command's destination (for WIPE, everywhere). -/
def SameResult (i : Instr) (s s' : State) (effect : State → Outcome) : Prop :=
  s.status.err = false → s'.status.err = false → ∀ t t', effect s = .next t → effect s' = .next t' →
    t.status.err = t'.status.err ∧ (t.status.err = true → t.status = t'.status) ∧
    (t.status.err = false → (∀ r, destReg i = some r ∨ i = .wipe → t.reg r = t'.reg r) ∧
      (∀ m k, destElem i = some (m, k) ∨ i = .wipe → t.elem m k = t'.elem m k))

theorem destElem_of_destReg {i : Instr} {rd : Reg} (h : destReg i = some rd) : destElem i = none := by
  cases i
  case stc | stx | sty | setc | setx | sety => cases h
  all_goals rfl

theorem vectorOperand_congr {s s' : State} {m : VecMem} {len : Count}
    (h : ∀ k, k < len.toNat → s.elem m k = s'.elem m k) : vectorOperand s m len = vectorOperand s' m len :=
  List.map_congr_left fun k hk => h k (List.mem_range.mp hk)

section TwoStates
variable {i : Instr} {s s' : State}

theorem sameResult_raise (c : Cause) (info : BitVec 8) : SameResult i s s' fun s => .next (s.raise c info) := by
  rintro - - _ _ ⟨⟩ ⟨⟩
  exact ⟨rfl, fun _ => rfl, nofun⟩

/-- An update that keeps STATUS raises no fault, so its result is what the destination holds. -/
theorem sameResult_of_status_eq {update : State → State} (hstatus : ∀ s, (update s).status = s.status)
    (hreg : ∀ r, destReg i = some r ∨ i = .wipe → (update s).reg r = (update s').reg r)
    (helem : ∀ m k, destElem i = some (m, k) ∨ i = .wipe → (update s).elem m k = (update s').elem m k) :
    SameResult i s s' fun s => .next (update s) := by
  rintro hs hs' _ _ ⟨⟩ ⟨⟩
  rw [hstatus, hstatus, hs, hs']
  exact ⟨rfl, nofun, fun _ => ⟨hreg, helem⟩⟩

theorem SameResult.unlessLatched {effect : State → Outcome} (h : SameResult i s s' effect) :
    SameResult i s s' (·.unlessLatched effect) := by
  intro hs hs'
  simpa only [unlessLatched_of_clear hs, unlessLatched_of_clear hs'] using h hs hs'

theorem sameResult_writeDest {rd : Reg} (hd : destReg i = some rd) {v : State → Elem} (hv : v s = v s') :
    SameResult i s s' fun s => writeDest s rd (v s) := by
  have hwipe : i ≠ .wipe := by
    rintro rfl
    cases hd
  refine sameResult_of_status_eq (fun _ => rfl) (fun r hr => ?_) fun m k hk => ?_
  · obtain rfl : rd = r := by simpa [hd, hwipe] using hr
    simpa using hv
  · simp [destElem_of_destReg hd, hwipe] at hk

theorem sameResult_writeElement {m : VecMem} {idx : Index} (hd : destElem i = some (m, idx.toNat)) {v : State → Elem}
    (hv : v s = v s') : SameResult i s s' fun s => writeElement s m idx (v s) := by
  have hwipe : i ≠ .wipe := by
    rintro rfl
    cases hd
  refine sameResult_of_status_eq (fun s => s.setElem_status m _ _) (fun r hr => ?_) fun m' k hk => ?_
  · have hreg : destReg i = some r := hr.resolve_right hwipe
    simp [destElem_of_destReg hreg] at hd
  · obtain ⟨rfl, rfl⟩ : m = m' ∧ idx.toNat = k := by simpa [hd, hwipe] using hk
    simpa [State.elem_setElem] using hv

theorem sameResult_writeOrRaise {rd : Reg} (hd : destReg i = some rd) (c : Cause) (info : BitVec 8)
    {o : State → Option Elem} (ho : o s = o s') :
    SameResult i s s' fun s => match o s with | none => .next (s.raise c info) | some v => writeDest s rd v := by
  simp only [SameResult, ho]
  cases o s' with
  | none => exact sameResult_raise c info
  | some v => exact sameResult_writeDest hd (v := fun _ => v) rfl

theorem sameResult_interpolateTo {rd : Reg} (hd : destReg i = some rd) {len : Count}
    (hpoints : ∀ m k, m ≠ .cv ∧ k < len.toNat → s.elem m k = s'.elem m k) {point : State → Elem}
    (hpoint : point s = point s') : SameResult i s s' fun s => interpolateTo rd (point s) len s := by
  have hvector (m : VecMem) (hm : m ≠ .cv) : vectorOperand s m len = vectorOperand s' m len :=
    vectorOperand_congr fun k hk => hpoints m k ⟨hm, hk⟩
  simp only [SameResult, interpolateTo, hvector .xv nofun, hvector .yv nofun, hpoint]
  cases checkXs (vectorOperand s' .xv len) with
  | some f => exact sameResult_raise f.1 f.2
  | none =>
    cases lagrange (vectorOperand s' .xv len) (vectorOperand s' .yv len) (point s') with
    | some v => exact sameResult_writeDest hd (v := fun _ => v) rfl
    | none => exact nofun

theorem sameResult_exec (hops : SameOperands i s s') : SameResult i s s' (exec i) := by
  obtain ⟨hreg, helem⟩ := hops
  cases i with
  | gfadd rd rs1 rs2 =>
    refine (sameResult_writeDest rfl ?_).unlessLatched
    exact congrArg₂ gfAdd (hreg rs1 (by simp [sourceRegs])) (hreg rs2 (by simp [sourceRegs]))
  | gfmul rd rs1 rs2 =>
    refine (sameResult_writeDest rfl ?_).unlessLatched
    exact congrArg₂ gfMul (hreg rs1 (by simp [sourceRegs])) (hreg rs2 (by simp [sourceRegs]))
  | gfinv rd rs1 =>
    refine (sameResult_writeOrRaise rfl .invZero (regInfo rs1) ?_).unlessLatched
    exact congrArg gfInv (hreg rs1 (by simp [sourceRegs]))
  | gfdiv rd rs1 rs2 =>
    refine (sameResult_writeOrRaise rfl .invZero (regInfo rs2) ?_).unlessLatched
    exact congrArg₂ gfDiv (hreg rs1 (by simp [sourceRegs])) (hreg rs2 (by simp [sourceRegs]))
  | ldi rd imm8 =>
    refine (sameResult_writeDest rfl ?_).unlessLatched
    rfl
  | ldc rd idx | ldx rd idx | ldy rd idx =>
    refine (sameResult_writeDest rfl ?_).unlessLatched
    exact helem _ _ ⟨rfl, rfl⟩
  | stc idx rs | stx idx rs | sty idx rs =>
    refine (sameResult_writeElement rfl ?_).unlessLatched
    exact hreg rs (by simp [sourceRegs])
  | setc idx imm8 | setx idx imm8 | sety idx imm8 =>
    refine (sameResult_writeElement rfl ?_).unlessLatched
    rfl
  | eval rd rs len =>
    refine (sameResult_writeOrRaise rfl .badLen 0x00#8 ?_).unlessLatched
    exact congrArg₂ polyEval (vectorOperand_congr fun k hk => helem .cv k ⟨rfl, hk⟩) (hreg rs (by simp [sourceRegs]))
  | interp0 rd len =>
    refine (sameResult_interpolateTo rfl helem ?_).unlessLatched
    rfl
  | interp rd rs len =>
    refine (sameResult_interpolateTo rfl helem ?_).unlessLatched
    exact hreg rs (by simp [sourceRegs])
  | nop =>
    rw [funext exec_nop]
    exact sameResult_of_status_eq (fun _ => rfl) (by simp [destReg]) (by simp [destElem])
  | clrerr =>
    rintro - - _ _ ⟨⟩ ⟨⟩
    exact ⟨rfl, nofun, fun _ => ⟨by simp [destReg], by simp [destElem]⟩⟩
  | wipe => exact sameResult_of_status_eq State.wipe_status (by simp) (by simp)

end TwoStates

/-- Settles O51: each command makes one shared update, with values it reads from its operands. -/
theorem resultsDependOnNamedOperandsOnly : Obligations.ResultsDependOnNamedOperandsOnly :=
  fun _ _ _ t t' hops hs hs' => sameResult_exec hops hs hs' t t'

end Sys2Proof.Machine
end
